-- ==== Sys2Proof/Word.lean ====
section
/-! DEFINITION. The plain value types: words, pins, levels, line states, boards. -/

namespace Sys2Proof

/-- An 8-bit operand: opcode, data, logical address (30_encoding.md R70). -/
abbrev Byte := BitVec 8

/-- A 4-bit operand, and the contents of one RAM location (20_memory.md R46). -/
abbrev Nibble := BitVec 4

/-- The word register `W`, 18 bits wide (10_state.md R20): the conceptual word of R61. -/
abbrev WireWord := BitVec 18

/-- A pin identifier: a natural number, of `PIN_W` bits, a parameter (00_scope.md R7, R8; `Cfg.fits`, `Instr.wf`). -/
abbrev Pin := Nat

/-- A nominal duration in seconds (00_scope.md R8; log 22). -/
abbrev Duration := Rat

/-- `LOW` or `HIGH` (00_scope.md R11). -/
inductive Level where
  | low
  | high
deriving DecidableEq, Repr

/-- The state of a line: `Z` (not driven by the block) or a level (00_scope.md R11, 10_state.md R25). -/
inductive LineState where
  | z
  | driven (l : Level)
deriving DecidableEq, Repr

/-- The two logical chip identities (00_scope.md R14). -/
inductive Board where
  | board0
  | board1
deriving DecidableEq, Repr

end Sys2Proof
end

