-- ==== Sys2Proof/Config.lean ====
section
/-! DEFINITION. The constants of the block (00_scope.md R6), its configuration inputs (R7) and the parameters the
document leaves open (R8). The inputs of R7 and R8 are records that State holds unchanged over a run (log 2). -/

namespace Sys2Proof

/-! Constants of R6. -/

/-- ID prefix of a command word. -/
def Config.cmdId : WireWord := 0b100
/-- ID prefix of a data word, nibble or byte. -/
def Config.dataId : WireWord := 0b101
/-- Mask applied to the logical address. -/
def Config.addrMask : Byte := 0x3F
/-- Mask applied to the nibble operand. -/
def Config.nibMask : Nibble := 0xF
/-- Logical addresses routed to BOARD0, nibble and byte. -/
def Config.b0Lo : Nat := 0x00
def Config.b0Hi : Nat := 0x3F
/-- Logical addresses routed to BOARD1 for a nibble write. -/
def Config.b1nLo : Nat := 0x40
def Config.b1nHi : Nat := 0xFF
/-- Logical addresses routed to BOARD1 for a byte write. -/
def Config.b1bLo : Nat := 0x40
def Config.b1bHi : Nat := 0x7F
/-- Last even address written by CLEAR. -/
def Config.clearLast : Nat := 126
/-- Address advance per character. -/
def Config.charPitch : Int := 12
/-- Character code of font index 0. -/
def Config.fontBase : Nat := 32

/-- The five commands the document names (30_encoding.md R66). -/
inductive CommandName where
  | systemDisable
  | setCommon8Nmos
  | systemEnable
  | ledOn
  | pwm16Grayscale
deriving DecidableEq, Repr

/-- `INIT_SEQ` (R6). -/
def Config.initSeq : List CommandName :=
  [.systemDisable, .setCommon8Nmos, .systemEnable, .ledOn, .pwm16Grayscale]

/-- One font character: 5 column bytes (00_scope.md R14, 43_glyphrenderer.md R121). -/
structure Glyph where
  g0 : Byte
  g1 : Byte
  g2 : Byte
  g3 : Byte
  g4 : Byte
deriving DecidableEq, Repr

/-- The configuration registers `CFG` (10_state.md R22); a chip-select of 0 means "board not wired" (R7). -/
structure Cfg where
  wr : Pin
  data : Pin
  cs0 : Pin
  cs1 : Pin
deriving DecidableEq, Repr

/-- The parameters of R8. `FONT_SIZE` is the length of `font`. -/
structure Params where
  /-- `PIN_W`: the width of a pin identifier. -/
  pinW : Nat
  initWr : Level
  initData : Level
  initCs : Level
  opcSystemDisable : Byte
  opcSetCommon8Nmos : Byte
  opcSystemEnable : Byte
  opcLedOn : Byte
  opcPwm16Grayscale : Byte
  tSettle : Duration
  tSelftest : Duration
  /-- `ADDR_W`: the width of the signed column address on the request port. -/
  addrW : Nat
  font : List Glyph
deriving DecidableEq, Repr

/-- R8's defaults. PRESUMED for the five opcodes (general knowledge, log 3); DESIGN CHOICE for the empty font (log 4)
and for `PIN_W`, which R8 leaves open (log 29); the levels, delays and `ADDR_W` are the spec's own proposals (log 5). -/
def Params.default : Params where
  pinW := 8
  initWr := .high
  initData := .low
  initCs := .high
  opcSystemDisable := 0x00
  opcSetCommon8Nmos := 0x20
  opcSystemEnable := 0x01
  opcLedOn := 0x03
  opcPwm16Grayscale := 0xAF
  tSettle := mkRat 1 10
  tSelftest := mkRat 1 10
  addrW := 16
  font := []

/-- The parameter `OPC_<name>` (30_encoding.md R66). -/
def Params.opcode (p : Params) : CommandName → Byte
  | .systemDisable => p.opcSystemDisable
  | .setCommon8Nmos => p.opcSetCommon8Nmos
  | .systemEnable => p.opcSystemEnable
  | .ledOn => p.opcLedOn
  | .pwm16Grayscale => p.opcPwm16Grayscale

/-- The first name of `INIT_SEQ` whose opcode is `o`, if any. DESIGN CHOICE (log 10): a command word that carries a
named opcode is read as the named command. -/
def Params.named (p : Params) (o : Byte) : Option CommandName :=
  Config.initSeq.find? (fun n => p.opcode n == o)

/-- A configuration in use: configuration `K1` of 95_test_vectors.md. DESIGN CHOICE (log 2): CFG has no reset value. -/
def Cfg.atReset : Cfg where
  wr := 3
  data := 5
  cs0 := 8
  cs1 := 7

end Sys2Proof
end

