-- ==== Sys2Proof/Syntax.lean ====
section
/-! DEFINITION. The instructions, one constructor per row of opcode_table.json, and the encoded forms in which they are
presented to the block. -/

namespace Sys2Proof

/-- The repertoire. Groups W and C are frames: the block sends that frame to `board` (log 9). Group REQ is the requests of
00_scope.md R9 with the operands of 30_encoding.md R70. -/
inductive Instr where
  /-- Row CMD (R62): frame `100 oooooooo 0`. -/
  | cmd (board : Board) (opcode : Byte)
  /-- Row WR_NIB (R63): frame `101 0aaaaaa dddd`. -/
  | wrNib (board : Board) (addr : BitVec 6) (data : Nibble)
  /-- Row WR_BYTE (R64): frame `101 0aaaaaa dddddddd`. -/
  | wrByte (board : Board) (addr : BitVec 6) (data : Byte)
  /-- Row SYSTEM_DISABLE (R66). -/
  | systemDisable (board : Board)
  /-- Row SET_COMMON_8NMOS (R66). -/
  | setCommon8Nmos (board : Board)
  /-- Row SYSTEM_ENABLE (R66). -/
  | systemEnable (board : Board)
  /-- Row LED_ON (R66). -/
  | ledOn (board : Board)
  /-- Row PWM_16_GRAYSCALE (R66). -/
  | pwm16Grayscale (board : Board)
  /-- Row TRANSMIT (R80). -/
  | transmit (word : WireWord) (bitLength : BitVec 5) (chipSelect : Pin)
  /-- Row ENC_CMD (R91); `board` is the 2-bit selector of R90. -/
  | encCmd (board : BitVec 2) (opcode : Byte)
  /-- Row ENC_NIB (R92). -/
  | encNib (address : Byte) (nibble : Nibble)
  /-- Row ENC_BYTE (R93). -/
  | encByte (address : Byte) (data : Byte)
  /-- Row OPEN (R100). -/
  | openLines
  /-- Row INIT (R101). -/
  | initBoard (board : BitVec 2)
  /-- Row CLEAR (R103). -/
  | clear
  /-- Row SELFTEST (R104). -/
  | selftest
  /-- Row WRCOL (R105). -/
  | wrcol (address : Int) (byteValue : Byte)
  /-- Row WRHALF (R106). -/
  | wrhalf (address : Int) (nibbleValue : Nibble)
  /-- Row TEARDOWN (R107). -/
  | teardown
  /-- Row RSTRING (R122); `text` is a list of character codes. -/
  | rstring (text : List Nat) (startColumn : Int)
  /-- Row RSCROLL (R123); `cycles` is an integer, so that the violation `cycles < 0` of R124 is expressible. -/
  | rscroll (text : List Nat) (speed : Rat) (cycles : Int)
deriving DecidableEq, Repr

/-- The operand fields of the request port, side by side (30_encoding.md R70, R71; log 8). An operation ignores the
fields it does not name. -/
structure Fields where
  word : WireWord
  bitLength : BitVec 5
  /-- The wires of `chipSelect`, of which the decoder reads the low `PIN_W` bits. -/
  chipSelect : Nat
  board : BitVec 2
  opcode : Byte
  /-- `address` of ENC_NIB and ENC_BYTE, 8 bits. -/
  address : Byte
  nibble : Nibble
  data : Byte
  /-- The wires of `address` of WRCOL and WRHALF, of which the decoder reads the low `ADDR_W` bits as a signed number. -/
  column : Nat
  byteValue : Byte
  nibbleValue : Nibble
  text : List Nat
  startColumn : Int
  speed : Rat
  cycles : Int
deriving DecidableEq, Repr

/-- Every operand field at zero (the host's "operand words of zeros"). -/
def Fields.zero : Fields where
  word := 0
  bitLength := 0
  chipSelect := 0
  board := 0
  opcode := 0
  address := 0
  nibble := 0
  data := 0
  column := 0
  byteValue := 0
  nibbleValue := 0
  text := []
  startColumn := 0
  speed := 0
  cycles := 0

/-- What stands at the head of the request stream: a request on the port of R71, or a wire frame `F` (R61) of `len` bits
named on the line of `board` (log 8, log 9). -/
inductive Presented where
  | request (op : BitVec 4) (fields : Fields)
  | frame (board : Board) (len : Nat) (value : Nat)
deriving DecidableEq, Repr

end Sys2Proof
end

