-- ==== Sys2Proof/WellFormed.lean ====
section
/-! DEFINITION. Well-formed configurations (00_scope.md R7) and well-formed instructions. -/

namespace Sys2Proof

/-- R7, D4: WR and DATA are not 0, and WR, DATA and the non-zero chip-selects are pairwise different. -/
def Cfg.wf (c : Cfg) : Bool :=
  c.wr != 0 && c.data != 0 && c.wr != c.data &&
  (c.cs0 == 0 || (c.cs0 != c.wr && c.cs0 != c.data)) &&
  (c.cs1 == 0 || (c.cs1 != c.wr && c.cs1 != c.data)) &&
  (c.cs0 == 0 || c.cs1 == 0 || c.cs0 != c.cs1)

/-- The pin identifier has `pinW` bits (R7, R10). -/
def pinFits (pinW : Nat) (p : Pin) : Bool := decide (p < 2 ^ pinW)

/-- Every pin identifier of the configuration has `PIN_W` bits (R7). -/
def Cfg.fits (pinW : Nat) (c : Cfg) : Bool :=
  pinFits pinW c.wr && pinFits pinW c.data && pinFits pinW c.cs0 && pinFits pinW c.cs1

/-- The configuration is one of R7 under the parameters `p`: identifiers of `PIN_W` bits, well-formed. -/
def configWf (p : Params) (c : Cfg) : Bool := c.wf && c.fits p.pinW

/-- The column address fits the signed `addrW` bits of the port (30_encoding.md R70): from `-2^(addrW-1)` to
`2^(addrW-1) - 1`. -/
def columnFits (addrW : Nat) (a : Int) : Bool :=
  decide (-(2 ^ addrW) ≤ 2 * a) && decide (2 * a < 2 ^ addrW)

/-- An instruction that some presented input decodes to, under the parameters `p`: the column address and the chip-select
fit the port; a CMD
frame carries no named opcode (that frame is the named command's, log 10); a named command is the first of its opcode. -/
def Instr.wf (p : Params) : Instr → Bool
  | .cmd _ o => p.named o == none
  | .wrNib _ _ _ => true
  | .wrByte _ _ _ => true
  | .systemDisable _ => p.named p.opcSystemDisable == some .systemDisable
  | .setCommon8Nmos _ => p.named p.opcSetCommon8Nmos == some .setCommon8Nmos
  | .systemEnable _ => p.named p.opcSystemEnable == some .systemEnable
  | .ledOn _ => p.named p.opcLedOn == some .ledOn
  | .pwm16Grayscale _ => p.named p.opcPwm16Grayscale == some .pwm16Grayscale
  | .transmit _ _ c => pinFits p.pinW c
  | .encCmd _ _ => true
  | .encNib _ _ => true
  | .encByte _ _ => true
  | .openLines => true
  | .initBoard _ => true
  | .clear => true
  | .selftest => true
  | .wrcol a _ => columnFits p.addrW a
  | .wrhalf a _ => columnFits p.addrW a
  | .teardown => true
  | .rstring _ _ => true
  | .rscroll _ _ _ => true

end Sys2Proof
end

