-- ==== Sys2Proof/Decode.lean ====
section
/-! DEFINITION. The decoder, from presented inputs to instructions, total and rejecting by name; then the encoder, written
from the same tables (30_encoding.md R61 to R73). -/

namespace Sys2Proof

/-- Why a presented input is no instruction. -/
inductive Reject where
  /-- Request code 0, 14 or 15 (R69 (f), R71). -/
  | reservedRequestCode
  /-- A frame that is none of the three formats of group W (R67, R69 (d)). -/
  | malformedFrame
deriving DecidableEq, Repr

/-! ## Group W: frames -/

/-- A row of the opcode table over an `len`-bit number (R73). -/
structure Row where
  len : Nat
  mask : Nat
  pattern : Nat
deriving DecidableEq, Repr

def Row.fits (r : Row) (len v : Nat) : Bool :=
  len == r.len && decide (v < 2 ^ r.len) && v &&& r.mask == r.pattern

/-- Row CMD: `100 oooooooo 0`. -/
def rowCmd : Row := { len := 12, mask := 0xE01, pattern := 0x800 }
/-- Row WR_NIB: `101 0aaaaaa dddd`. -/
def rowNib : Row := { len := 14, mask := 0x3C00, pattern := 0x2800 }
/-- Row WR_BYTE: `101 0aaaaaa dddddddd`. -/
def rowByte : Row := { len := 18, mask := 0x3C000, pattern := 0x28000 }

/-- The fields of a frame of one of the three formats. -/
inductive Frame where
  | command (opcode : Byte)
  | nibble (addr : BitVec 6) (data : Nibble)
  | byte (addr : BitVec 6) (data : Byte)
deriving DecidableEq, Repr

/-- The frame decoder of the receiving side, from group W and the frame length (R67, R73). `v` is the number F of R61. -/
def decodeFrame (len v : Nat) : Option Frame :=
  if rowCmd.fits len v then some (.command (BitVec.ofNat 8 (v >>> 1)))
  else if rowNib.fits len v then some (.nibble (BitVec.ofNat 6 (v >>> 4)) (BitVec.ofNat 4 v))
  else if rowByte.fits len v then some (.byte (BitVec.ofNat 6 (v >>> 8)) (BitVec.ofNat 8 v))
  else none

/-- The named command's instruction (group C). -/
def CommandName.instr (b : Board) : CommandName → Instr
  | .systemDisable => .systemDisable b
  | .setCommon8Nmos => .setCommon8Nmos b
  | .systemEnable => .systemEnable b
  | .ledOn => .ledOn b
  | .pwm16Grayscale => .pwm16Grayscale b

/-- A frame on the line of `b` as an instruction: group C where the opcode is a named one (log 10), else group W. -/
def Frame.instr (p : Params) (b : Board) : Frame → Instr
  | .command o =>
    match p.named o with
    | some n => n.instr b
    | none => .cmd b o
  | .nibble a d => .wrNib b a d
  | .byte a d => .wrByte b a d

/-! ## Group REQ: requests -/

/-- The pin identifier on the port: `PIN_W` bits (R7, R70). -/
def portPin (p : Params) (wires : Nat) : Pin := wires % 2 ^ p.pinW

/-- The column address on the port: a signed integer of `ADDR_W` bits (R70). -/
def portColumn (p : Params) (wires : Nat) : Int := (BitVec.ofNat p.addrW wires).toInt

/-- The request codes of R71, the port as wide as the parameters `p` say. -/
def decodeRequest (p : Params) (op : BitVec 4) (f : Fields) : Except Reject Instr :=
  match op.toNat with
  | 1 => .ok (.transmit f.word f.bitLength (portPin p f.chipSelect))
  | 2 => .ok (.encCmd f.board f.opcode)
  | 3 => .ok (.encNib f.address f.nibble)
  | 4 => .ok (.encByte f.address f.data)
  | 5 => .ok .openLines
  | 6 => .ok (.initBoard f.board)
  | 7 => .ok .clear
  | 8 => .ok .selftest
  | 9 => .ok (.wrcol (portColumn p f.column) f.byteValue)
  | 10 => .ok (.wrhalf (portColumn p f.column) f.nibbleValue)
  | 11 => .ok .teardown
  | 12 => .ok (.rstring f.text f.startColumn)
  | 13 => .ok (.rscroll f.text f.speed f.cycles)
  | _ => .error .reservedRequestCode

/-- The decoder. Command words are recognised by the opcode parameters of `p` (R66: the opcode values are parameters), and
the request port is as wide as `p` says (R8). -/
def decode (p : Params) : Presented → Except Reject Instr
  | .request op f => decodeRequest p op f
  | .frame b len v =>
    match decodeFrame len v with
    | some fr => .ok (fr.instr p b)
    | none => .error .malformedFrame

/-! ## The encoder -/

/-- `F = c[15:4]` of `c = 0b100 << 13 | opcode << 5` (R62). -/
def commandFrame (o : Byte) : Nat := 0b100 <<< 9 ||| o.toNat <<< 1

/-- `F = c[15:2]` of `c = 0b101 << 13 | addr << 6 | nibble << 2` (R63). -/
def nibbleFrame (a : BitVec 6) (d : Nibble) : Nat := 0b101 <<< 11 ||| a.toNat <<< 4 ||| d.toNat

/-- `F = c[17:0]` of `c = 0b101 << 15 | addr << 8 | data` (R64). -/
def byteFrame (a : BitVec 6) (d : Byte) : Nat := 0b101 <<< 15 ||| a.toNat <<< 8 ||| d.toNat

/-- The presented form of an instruction; request fields it does not name are zero. -/
def encode (p : Params) : Instr → Presented
  | .cmd b o => .frame b 12 (commandFrame o)
  | .wrNib b a d => .frame b 14 (nibbleFrame a d)
  | .wrByte b a d => .frame b 18 (byteFrame a d)
  | .systemDisable b => .frame b 12 (commandFrame p.opcSystemDisable)
  | .setCommon8Nmos b => .frame b 12 (commandFrame p.opcSetCommon8Nmos)
  | .systemEnable b => .frame b 12 (commandFrame p.opcSystemEnable)
  | .ledOn b => .frame b 12 (commandFrame p.opcLedOn)
  | .pwm16Grayscale b => .frame b 12 (commandFrame p.opcPwm16Grayscale)
  | .transmit w n c => .request 1 { Fields.zero with word := w, bitLength := n, chipSelect := c }
  | .encCmd b o => .request 2 { Fields.zero with board := b, opcode := o }
  | .encNib a d => .request 3 { Fields.zero with address := a, nibble := d }
  | .encByte a d => .request 4 { Fields.zero with address := a, data := d }
  | .openLines => .request 5 Fields.zero
  | .initBoard b => .request 6 { Fields.zero with board := b }
  | .clear => .request 7 Fields.zero
  | .selftest => .request 8 Fields.zero
  | .wrcol a v => .request 9 { Fields.zero with column := (BitVec.ofInt p.addrW a).toNat, byteValue := v }
  | .wrhalf a v => .request 10 { Fields.zero with column := (BitVec.ofInt p.addrW a).toNat, nibbleValue := v }
  | .teardown => .request 11 Fields.zero
  | .rstring t c => .request 12 { Fields.zero with text := t, startColumn := c }
  | .rscroll t v n => .request 13 { Fields.zero with text := t, speed := v, cycles := n }

/-- The row of opcode_table.json an instruction belongs to (R73): over the frame for groups W and C, over the 4-bit `op`
for group REQ. -/
def Instr.row (p : Params) : Instr → Row
  | .cmd _ _ => rowCmd
  | .wrNib _ _ _ => rowNib
  | .wrByte _ _ _ => rowByte
  | .systemDisable _ => { len := 12, mask := 0xFFF, pattern := 0x800 ||| p.opcSystemDisable.toNat <<< 1 }
  | .setCommon8Nmos _ => { len := 12, mask := 0xFFF, pattern := 0x800 ||| p.opcSetCommon8Nmos.toNat <<< 1 }
  | .systemEnable _ => { len := 12, mask := 0xFFF, pattern := 0x800 ||| p.opcSystemEnable.toNat <<< 1 }
  | .ledOn _ => { len := 12, mask := 0xFFF, pattern := 0x800 ||| p.opcLedOn.toNat <<< 1 }
  | .pwm16Grayscale _ => { len := 12, mask := 0xFFF, pattern := 0x800 ||| p.opcPwm16Grayscale.toNat <<< 1 }
  | .transmit _ _ _ => { len := 4, mask := 0xF, pattern := 1 }
  | .encCmd _ _ => { len := 4, mask := 0xF, pattern := 2 }
  | .encNib _ _ => { len := 4, mask := 0xF, pattern := 3 }
  | .encByte _ _ => { len := 4, mask := 0xF, pattern := 4 }
  | .openLines => { len := 4, mask := 0xF, pattern := 5 }
  | .initBoard _ => { len := 4, mask := 0xF, pattern := 6 }
  | .clear => { len := 4, mask := 0xF, pattern := 7 }
  | .selftest => { len := 4, mask := 0xF, pattern := 8 }
  | .wrcol _ _ => { len := 4, mask := 0xF, pattern := 9 }
  | .wrhalf _ _ => { len := 4, mask := 0xF, pattern := 10 }
  | .teardown => { len := 4, mask := 0xF, pattern := 11 }
  | .rstring _ _ => { len := 4, mask := 0xF, pattern := 12 }
  | .rscroll _ _ _ => { len := 4, mask := 0xF, pattern := 13 }

/-- The length and the number a row is matched against. -/
def Presented.tableWord : Presented → Nat × Nat
  | .request op _ => (4, op.toNat)
  | .frame _ len v => (len, v)

/-! ## Table words, for the host's two questions -/

/-- A word of the opcode table as a presented input (log 11). Group REQ rows are 4 bits in one byte: a request with every
operand zero. Group W and C rows are frames: 12 or 14 bits in two bytes, told apart by the leading 1 of the ID; 18 bits in
three. A word too large for these is a frame of `nbits` bits, which no row fits. A frame stands on BOARD0's line. -/
def presentTableWord (nbits w : Nat) : Presented :=
  if nbits ≤ 8 then
    if w < 2 ^ 4 then .request (BitVec.ofNat 4 w) Fields.zero else .frame .board0 nbits w
  else if nbits ≤ 16 then
    if w < 2 ^ 12 then .frame .board0 12 w
    else if w < 2 ^ 14 then .frame .board0 14 w
    else .frame .board0 nbits w
  else if nbits ≤ 24 ∧ w < 2 ^ 18 then .frame .board0 18 w
  else .frame .board0 nbits w

/-- The instruction the decoder reads from a table word, with the parameters at their defaults. -/
def decodeTableWord (nbits w : Nat) : Option Instr :=
  (decode Params.default (presentTableWord nbits w)).toOption

end Sys2Proof
end

