-- ==== Sys2Proof/Machine/Operands.lean ====
section
/-! DEFINITION. Operand forms: levels, boards, chip-selects, word lengths, the three conceptual words, routing, address
lists, and the outer layer's glyph arithmetic. -/

namespace Sys2Proof.Machine

/-- `lvl(b)` (00_scope.md R11, D13). -/
def lvl (b : Bool) : Level := if b then .high else .low

/-- The board number used in `RAM[b][a]`. -/
def boardIndex : Board → Nat
  | .board0 => 0
  | .board1 => 1

/-- The 2-bit selector of R90: 0 is BOARD0, 1 is BOARD1, 2 and 3 are invalid. -/
def boardOfSelector (sel : BitVec 2) : Option Board :=
  match sel.toNat with
  | 0 => some .board0
  | 1 => some .board1
  | _ => none

/-- `resolve(board)` (41_wordencoder.md R94). -/
def resolve (c : Cfg) : Board → Pin
  | .board0 => c.cs0
  | .board1 => c.cs1

/-- A board is wired when its chip-select is not 0 (00_scope.md R14). -/
def wired (c : Cfg) (b : Board) : Bool := resolve c b != 0

/-- The board a non-zero chip-select belongs to, if any (40_bitserializer.md R86). -/
def boardOfPin (c : Cfg) (cs : Pin) : Option Board :=
  if cs = c.cs0 then some .board0
  else if cs = c.cs1 then some .board1
  else none

/-! ## Word lengths (00_scope.md R6 `LENGTHS`, 40_bitserializer.md R81) -/

/-- The three valid word lengths, by `WLEN`. -/
def lengthOfField (n : BitVec 5) : Option Nat :=
  if n.toNat = 12 ∨ n.toNat = 14 ∨ n.toNat = 18 then some n.toNat else none

/-- `range(bitLength)` = (hi, lo) (R81). -/
def bitRange (len : Nat) : Nat × Nat :=
  if len = 18 then (17, 0) else if len = 14 then (15, 2) else (15, 4)

/-- The positions `POS` of the bit loop, from hi down to lo. -/
def positions (len : Nat) : List Nat :=
  (List.range ((bitRange len).1 + 1 - (bitRange len).2)).map ((bitRange len).1 - ·)

/-- The bits TRANSMIT sends, first bit first: `word[hi:lo]` (R61, R81). -/
def sentBits (word : WireWord) (len : Nat) : List Bool :=
  (positions len).map word.getLsbD

/-- The number a bit list stands for, first bit most significant: the frame `F` of R61. -/
def bitsValue (bits : List Bool) : Nat :=
  bits.foldl (fun v b => 2 * v + b.toNat) 0

/-! ## The conceptual words (41_wordencoder.md R91 to R93) -/

/-- `(0b100 << 13) | (opcode << 5)` (R91). -/
def commandWord (opcode : Byte) : WireWord :=
  Config.cmdId <<< 13 ||| opcode.setWidth 18 <<< 5

/-- `(0b101 << 13) | ((address & 0x3F) << 6) | ((nibble & 0xF) << 2)` (R92). -/
def nibbleWord (address : Byte) (nibble : Nibble) : WireWord :=
  Config.dataId <<< 13 ||| (address &&& Config.addrMask).setWidth 18 <<< 6 |||
    (nibble &&& Config.nibMask).setWidth 18 <<< 2

/-- `(0b101 << 15) | ((address & 0x3F) << 8) | data` (R93). -/
def byteWord (address : Byte) (data : Byte) : WireWord :=
  Config.dataId <<< 15 ||| (address &&& Config.addrMask).setWidth 18 <<< 8 ||| data.setWidth 18

/-! ## Routing (20_memory.md R41, R42): two tests, which stay independent (R95) -/

def routesBoard0 (address : Byte) : Bool :=
  decide (Config.b0Lo ≤ address.toNat) && decide (address.toNat ≤ Config.b0Hi)

def nibbleRoutesBoard1 (address : Byte) : Bool :=
  decide (Config.b1nLo ≤ address.toNat) && decide (address.toNat ≤ Config.b1nHi)

def byteRoutesBoard1 (address : Byte) : Bool :=
  decide (Config.b1bLo ≤ address.toNat) && decide (address.toNat ≤ Config.b1bHi)

/-- The chip address `address & 0x3F` (20_memory.md R43). -/
def chipAddress (address : Byte) : BitVec 6 := (address &&& Config.addrMask).setWidth 6

/-- The address list of CLEAR and SELFTEST: 0, 2, ..., 126 (42_displaycontroller.md R103, R104). -/
def evenAddresses : List Byte :=
  (List.range (Config.clearLast / 2 + 1)).map (fun k => BitVec.ofNat 8 (2 * k))

/-- The range test of WRCOL and WRHALF: 0 to 255 (42_displaycontroller.md R105, R106). -/
def addressInRange (a : Int) : Bool := decide (0 ≤ a) && decide (a ≤ 255)

/-! ## The outer layer (43_glyphrenderer.md) -/

/-- `reverse8(b)[i] = b[7 - i]` (R120). -/
def reverse8 (b : Byte) : Byte :=
  BitVec.ofNat 8 (bitsValue ((List.range 8).map b.getLsbD))

/-- The closed form of R120, on mathematical integers. -/
def reverse8Formula (b : Byte) : Nat :=
  ((b.toNat * 0x0202020202) &&& 0x010884422010) % 1023

/-- The five bytes of a glyph, in order (R121). -/
def glyphBytes (g : Glyph) : List Byte := [g.g0, g.g1, g.g2, g.g3, g.g4]

/-- `FONT[c - 32]`, absent for a code below 32 or at or beyond `32 + FONT_SIZE` (R122). -/
def glyphOf (font : List Glyph) (c : Nat) : Option Glyph :=
  if c < Config.fontBase then none else font[c - Config.fontBase]?

/-- The validation of R122, R123: every character code has a glyph. -/
def textInRange (font : List Glyph) (text : List Nat) : Bool :=
  text.all (fun c => (glyphOf font c).isSome)

/-- The start offsets of one scroll cycle: 0 down to `-6 * len(text) + 1` (R123). -/
def scrollOffsets (text : List Nat) : List Int :=
  (List.range (6 * text.length)).map (fun k => -(k : Int))

/-- `1 / speed` seconds for a positive speed `n / d`: the rational `d / n` (R123), in a form the kernel evaluates. -/
def scrollPeriod (speed : Rat) : Duration := mkRat speed.den speed.num.toNat

end Sys2Proof.Machine
end

