-- ==== Sys2Proof/Machine/State.lean ====
section
/-! DEFINITION. The state of the block, its inputs, and the ghost RAM of the two chips, as plain data. -/

namespace Sys2Proof.Machine

/-- `PHASE` (10_state.md R23): `closed` is CLOSED, `opened` is OPEN, `released` is RELEASED. -/
inductive Phase where
  | closed
  | opened
  | released
deriving DecidableEq, Repr

/-- A lifecycle register `LC[b]` (10_state.md R24). -/
inductive Lifecycle where
  | uninit
  | disabled
  | configured
  | enabled
deriving DecidableEq, Repr

/-- The reported errors (60_exceptions.md R131). -/
inductive ErrorCode where
  | csUnconfigured
  | badLength
  | badBoard
  | range
deriving DecidableEq, Repr

/-- The events of the output trace (00_scope.md R11). -/
inductive Event where
  | configure (p : Pin) (l : Level)
  | pinWrite (p : Pin) (l : Level)
  | releaseAll
  | delay (t : Duration)
  | report (c : ErrorCode)
deriving DecidableEq, Repr

/-- `LEVEL` (10_state.md R25): the driven pins and their levels, pins strictly rising; a pin not listed is `Z`. -/
abbrev Levels := List (Pin × Level)

/-- The ghost RAM of both chips (20_memory.md R46): (location, nibble) pairs, locations strictly rising; location
`64 * b + a` is `RAM[b][a]`. A location not listed is unspecified: the model knows no value of it (log 12). -/
abbrev Memory := List (Nat × Nibble)

/-- The machine's state. `cfg` and `params` are the inputs of R7 and R8, which no step changes (10_state.md R22, R32);
`requests` is the request stream still to be served (R13, R32). -/
structure State where
  cfg : Cfg
  params : Params
  phase : Phase
  lc0 : Lifecycle
  lc1 : Lifecycle
  levels : Levels
  trace : List Event
  ram : Memory
  requests : List Presented
deriving DecidableEq, Repr

/-- Reset (10_state.md R30, 70_reset_and_hazards.md R150). The inputs `cfg`, `params`, `requests` have no reset value in
the spec: log 2, 3, 4, 5, 7. -/
def State.reset : State where
  cfg := Cfg.atReset
  params := Params.default
  phase := .closed
  lc0 := .uninit
  lc1 := .uninit
  levels := []
  trace := []
  ram := []
  requests := []

/-- What stops the machine with a fault: nothing ("No failure is fatal to the process", 60_exceptions.md R136). Errors are
`report` events of a next state. Safe: no outcome is a fault. -/
inductive Fault where
deriving DecidableEq, Repr

/-- The requests the model gives no meaning, because the spec refuses them (60_exceptions.md R141). Each is safe: nothing
is claimed of a run that contains one. -/
inductive Refusal where
  /-- Raised by an arm of `exec` whose instruction has no meaning yet (none is left). Safe. -/
  | notModelled (mnemonic : String)
  /-- R141 (a): a request its phase does not take (42_displaycontroller.md R110). Raised by every meaning but
  TEARDOWN's, through `serve`. Safe. -/
  | wrongPhase
  /-- R141 (b): a direct TRANSMIT whose non-zero chip-select is neither CFG.CS0 nor CFG.CS1 (40_bitserializer.md R86).
  Raised by TRANSMIT. Safe. -/
  | foreignChipSelect
  /-- R141 (c): RSCROLL with `speed ≤ 0` or `cycles < 0` (43_glyphrenderer.md R124). Raised by RSCROLL. Safe. -/
  | scrollOperands
  /-- R141 (d): request code 0, 14 or 15. Raised by `step` when decoding. Safe. -/
  | reservedRequestCode
  /-- R141 (e): any request under a configuration that is not well-formed (00_scope.md R7), or whose pins are no
  identifiers of PIN_W bits (log 29). Raised by every meaning, through `serve`. Safe. -/
  | illFormedConfiguration
  /-- A presented frame that is none of the three formats (log 9). Raised by `step` when decoding. Safe. -/
  | malformedFrame
deriving DecidableEq, Repr

end Sys2Proof.Machine
end

