-- ==== Sys2Proof/Machine/Table.lean ====
section
/-! DEFINITION. A sparse table in one canonical form: (key, value) pairs, keys strictly rising. It holds LEVEL and the
ghost RAM; an absent key means "not driven" there and "unspecified" here. -/

namespace Sys2Proof.Machine

/-- The canonical form: keys strictly rising. No entry can equal what an absent key reads as, which is no value. -/
def Table.wf {α : Type} (t : List (Nat × α)) : Bool :=
  decide ((t.map Prod.fst).Pairwise (· < ·))

/-- The value at a key, if listed. -/
def Table.get {α : Type} : List (Nat × α) → Nat → Option α
  | [], _ => none
  | (k, v) :: rest, q => if q = k then some v else Table.get rest q

/-- Write the value at a key, keeping the keys rising. -/
def Table.set {α : Type} : List (Nat × α) → Nat → α → List (Nat × α)
  | [], q, x => [(q, x)]
  | (k, v) :: rest, q, x =>
    if q < k then (q, x) :: (k, v) :: rest
    else if q = k then (q, x) :: rest
    else (k, v) :: Table.set rest q x

/-- Keep the entries whose key satisfies `keep`. -/
def Table.restrict {α : Type} (keep : Nat → Bool) (t : List (Nat × α)) : List (Nat × α) :=
  t.filter (fun e => keep e.1)

end Sys2Proof.Machine
end

