-- ==== Sys2Proof/Machine/Ops.lean ====
section
/-! DEFINITION. The shared operations over the state: emitting events, LEVEL, the ghost RAM, raising an error, serving a
request in its phase, and the block's own operations that requests call in place (R12). -/

namespace Sys2Proof.Machine

/-! ## Events and LEVEL (00_scope.md R11) -/

/-- `LEVEL` after an event. -/
def Levels.after (lv : Levels) : Event → Levels
  | .configure p l => Table.set lv p l
  | .pinWrite p l => Table.set lv p l
  | .releaseAll => []
  | .delay _ => lv
  | .report _ => lv

/-- `LEVEL[p]` (10_state.md R25). -/
def Levels.line (lv : Levels) (p : Pin) : LineState :=
  match Table.get lv p with
  | none => .z
  | some l => .driven l

/-- `emit e` for each event in turn, with its effect on LEVEL. -/
def emit (es : List Event) (s : State) : State :=
  { s with trace := s.trace ++ es, levels := es.foldl Levels.after s.levels }

/-- The lifecycle register of a board. -/
def State.lc (s : State) : Board → Lifecycle
  | .board0 => s.lc0
  | .board1 => s.lc1

/-- `LC[board] <- x`. -/
def setLc (b : Board) (x : Lifecycle) (s : State) : State :=
  match b with
  | .board0 => { s with lc0 := x }
  | .board1 => { s with lc1 := x }

/-! ## Taking an error (60_exceptions.md R134)

`raise` is the block's one form of exception: one `Report` event, and the request ends. Nothing is saved, no mode changes,
no handler exists, and there is nothing to return from (R136). -/

def raise (c : ErrorCode) (s : State) : State := emit [.report c] s

/-! ## The ghost RAM (20_memory.md R46 to R48) -/

/-- The form of `Memory`: locations strictly rising, all below 128 (two chips of 64 locations, R40). -/
def Memory.wf (m : Memory) : Bool := Table.wf m && m.all (fun e => decide (e.1 < 128))

/-- The key of `RAM[b][a]`. -/
def location (b : Board) (a : BitVec 6) : Nat := 64 * boardIndex b + a.toNat

/-- `RAM[b][a]`: `none` is "unspecified". -/
def Memory.read (m : Memory) (b : Board) (a : BitVec 6) : Option Nibble := Table.get m (location b a)

/-- `MemWrite(b, a, 4, v)` (00_scope.md R12). -/
def Memory.write (m : Memory) (b : Board) (a : BitVec 6) (v : Nibble) : Memory := Table.set m (location b a) v

/-- Every location of `RAM[b]` becomes unspecified. -/
def Memory.forget (m : Memory) (b : Board) : Memory := Table.restrict (fun k => k / 64 != boardIndex b) m

/-- What a byte frame does (R48). The first-sent half lands at `a` and the second at `a + 1`: PRESUMED (G3, log 13). At
`a = 63` every other location of the chip becomes unspecified (U5, log 16). -/
def Memory.writeByte (m : Memory) (b : Board) (a : BitVec 6) (d : Byte) : Memory :=
  if a.toNat < 63 then
    (m.write b a (d.extractLsb' 4 4)).write b (a + 1) (d.extractLsb' 0 4)
  else (m.forget b).write b a (d.extractLsb' 4 4)

/-- What the chip on board `b` does with a frame of these bits. A command frame (R46, U17, log 14) and a frame of none of
the three formats (U6, log 15) leave no location of the chip known. The board's lifecycle is not read (D15, log 17). -/
def Memory.receive (m : Memory) (b : Board) (bits : List Bool) : Memory :=
  match decodeFrame bits.length (bitsValue bits) with
  | some (.nibble a d) => m.write b a d
  | some (.byte a d) => m.writeByte b a d
  | some (.command _) => m.forget b
  | none => m.forget b

/-! ## BitSerializer (40_bitserializer.md R80) -/

/-- The events of one bit: DATA set, WR pulsed low then high (R83). -/
def bitEvents (c : Cfg) (b : Bool) : List Event :=
  [.pinWrite c.data (lvl b), .pinWrite c.wr .low, .pinWrite c.wr .high]

/-- The events of a TRANSMIT that passes validation: steps 1 to 4 of R80, for the bits to be sent. -/
def frameEvents (c : Cfg) (cs : Pin) (bits : List Bool) : List Event :=
  [.pinWrite c.wr .high, .pinWrite cs .low] ++ bits.flatMap (bitEvents c) ++ [.pinWrite cs .high]

/-- TRANSMIT after validation, to the chip of board `b`: the events, and the frame's effect on that chip's RAM. -/
def transmit (b : Board) (word : WireWord) (len : Nat) (s : State) : State :=
  let bits := sentBits word len
  let s' := emit (frameEvents s.cfg (resolve s.cfg b) bits) s
  { s' with ram := s.ram.receive b bits }

/-! ## WordEncoder (41_wordencoder.md R91 to R94) -/

/-- `send(board, word, length)` (R94): a silent skip when the board is not wired (60_exceptions.md R132). -/
def send (b : Board) (word : WireWord) (len : Nat) (s : State) : State :=
  if wired s.cfg b then transmit b word len s else s

/-- ENC_CMD on a valid board (R91). -/
def sendCommand (b : Board) (opcode : Byte) (s : State) : State := send b (commandWord opcode) 12 s

/-- ENC_NIB (R92): two tests, BOARD0's first. -/
def encodeNibble (address : Byte) (nibble : Nibble) (s : State) : State :=
  let s := if routesBoard0 address then send .board0 (nibbleWord address nibble) 14 s else s
  if nibbleRoutesBoard1 address then send .board1 (nibbleWord address nibble) 14 s else s

/-- ENC_BYTE (R93): two tests, BOARD0's first. -/
def encodeByte (address : Byte) (data : Byte) (s : State) : State :=
  let s := if routesBoard0 address then send .board0 (byteWord address data) 18 s else s
  if byteRoutesBoard1 address then send .board1 (byteWord address data) 18 s else s

/-! ## DisplayController (42_displaycontroller.md) -/

/-- The Configure events of OPEN (R100). -/
def openEvents (c : Cfg) (p : Params) : List Event :=
  [.configure c.wr p.initWr, .configure c.data p.initData] ++
    (if c.cs0 = 0 then [] else [.configure c.cs0 p.initCs]) ++
    (if c.cs1 = 0 then [] else [.configure c.cs1 p.initCs])

/-- ENC_BYTE of one value to every even address (R103, R104). -/
def fill (v : Byte) (s : State) : State :=
  evenAddresses.foldl (fun s a => encodeByte a v s) s

/-- INIT of a wired board (R101). -/
def initialise (b : Board) (s : State) : State :=
  let s := setLc b .disabled (sendCommand b s.params.opcSystemDisable s)
  let s := setLc b .configured (sendCommand b s.params.opcSetCommon8Nmos s)
  let s := sendCommand b s.params.opcSystemEnable s
  let s := sendCommand b s.params.opcLedOn s
  let s := sendCommand b s.params.opcPwm16Grayscale s
  setLc b .enabled (emit [.delay s.params.tSettle] s)

/-- WRCOL (R105): an address outside 0 to 255 is dropped silently. -/
def writeColumn (a : Int) (v : Byte) (s : State) : State :=
  if addressInRange a then encodeByte (BitVec.ofInt 8 a) v s else s

/-- WRHALF (R106). -/
def writeHalfColumn (a : Int) (v : Nibble) (s : State) : State :=
  if addressInRange a then encodeNibble (BitVec.ofInt 8 a) v s else s

/-! ## GlyphRenderer (43_glyphrenderer.md) -/

/-- WRCOL of successive bytes at addresses `a`, `a + 2`, ... -/
def writeColumns : List Byte → Int → State → State
  | [], _, s => s
  | v :: vs, a, s => writeColumns vs (a + 2) (writeColumn a v s)

/-- `renderGlyph(g, a)` (R121): five reversed columns and the blank spacer. -/
def renderGlyph (g : Glyph) (a : Int) (s : State) : State :=
  writeColumns ((glyphBytes g).map reverse8 ++ [0x00]) a s

/-- The rendering loop of RSTRING from address `cur` (R122). A code without a glyph cannot occur after validation. -/
def renderText : List Nat → Int → State → State
  | [], _, s => s
  | c :: cs, cur, s =>
    let s := match glyphOf s.params.font c with
      | some g => renderGlyph g cur s
      | none => s
    renderText cs (cur + Config.charPitch) s

/-- One scroll offset: the whole text, then the delay of `1 / speed` seconds (R123). -/
def scrollFrame (text : List Nat) (speed : Rat) (s : State) (offset : Int) : State :=
  emit [.delay (scrollPeriod speed)] (renderText text (offset * 2) s)

/-- `cycles` repetitions of the slide (R123). -/
def scrollCycles (text : List Nat) (speed : Rat) : Nat → State → State
  | 0, s => s
  | n + 1, s => scrollCycles text speed n ((scrollOffsets text).foldl (scrollFrame text speed) s)

/-! ## Serving a request (42_displaycontroller.md R110, 60_exceptions.md R141) -/

/-- The outcome `k` when the configuration is well-formed and the phase takes the request; a refusal otherwise, which
comes before any error (R137). -/
def serve (takes : Bool) (s : State) (k : Host.Outcome State Fault Refusal) : Host.Outcome State Fault Refusal :=
  if configWf s.params s.cfg then
    if takes then k else .refused .wrongPhase
  else .refused .illFormedConfiguration

/-- Serve a request that only `PHASE = OPEN` takes. -/
def serveOpened (s : State) (k : Host.Outcome State Fault Refusal) : Host.Outcome State Fault Refusal :=
  serve (s.phase == .opened) s k

end Sys2Proof.Machine
end

