-- ==== Sys2Proof/Machine/BitSerializer.lean ====
section
/-! DEFINITION. The meaning of TRANSMIT (40_bitserializer.md). -/

namespace Sys2Proof.Machine

/-- TRANSMIT (R80, R84, R86): refused in a wrong phase; chip-select 0 is reported first; a foreign chip-select is refused;
then a bad length is reported (R137: a refusal comes before any error). -/
def execTransmit (word : WireWord) (bitLength : BitVec 5) (chipSelect : Pin) (s : State) :
    Host.Outcome State Fault Refusal :=
  serveOpened s <|
    if chipSelect = 0 then .next (raise .csUnconfigured s)
    else
      match boardOfPin s.cfg chipSelect with
      | none => .refused .foreignChipSelect
      | some b =>
        match lengthOfField bitLength with
        | none => .next (raise .badLength s)
        | some len => .next (transmit b word len s)

end Sys2Proof.Machine
end

