-- ==== Sys2Proof/Machine/DisplayController.lean ====
section
/-! DEFINITION. The meanings of OPEN, INIT, CLEAR, SELFTEST, WRCOL, WRHALF, TEARDOWN, and the pseudo-operation STARTUP
(42_displaycontroller.md). -/

namespace Sys2Proof.Machine

/-- OPEN (R100): taken in `PHASE = CLOSED` only. -/
def execOpen (s : State) : Host.Outcome State Fault Refusal :=
  serve (s.phase == .closed) s
    (.next { emit (openEvents s.cfg s.params) s with phase := .opened })

/-- INIT (R101): the selector is validated before the board is resolved (R137); an unwired board is a no-op. -/
def execInit (board : BitVec 2) (s : State) : Host.Outcome State Fault Refusal :=
  serveOpened s <|
    match boardOfSelector board with
    | none => .next (raise .badBoard s)
    | some b => .next (if wired s.cfg b then initialise b s else s)

/-- CLEAR (R103). -/
def execClear (s : State) : Host.Outcome State Fault Refusal :=
  serveOpened s (.next (fill 0x00 s))

/-- SELFTEST (R104). -/
def execSelftest (s : State) : Host.Outcome State Fault Refusal :=
  serveOpened s (.next (fill 0x00 (emit [.delay s.params.tSelftest] (fill 0xFF s))))

/-- WRCOL (R105). -/
def execWrcol (address : Int) (byteValue : Byte) (s : State) : Host.Outcome State Fault Refusal :=
  serveOpened s (.next (writeColumn address byteValue s))

/-- WRHALF (R106). -/
def execWrhalf (address : Int) (nibbleValue : Nibble) (s : State) : Host.Outcome State Fault Refusal :=
  serveOpened s (.next (writeHalfColumn address nibbleValue s))

/-- TEARDOWN (R107): taken in every phase; outside `PHASE = OPEN` it does nothing. -/
def execTeardown (s : State) : Host.Outcome State Fault Refusal :=
  serve true s
    (.next (if s.phase = .opened then { emit [.releaseAll] (fill 0x00 s) with phase := .released } else s))

/-- STARTUP (R102): three requests in a row. -/
def startupRequests : List Instr := [.openLines, .initBoard 0, .initBoard 1]

end Sys2Proof.Machine
end

