-- ==== Sys2Proof/Machine/GlyphRenderer.lean ====
section
/-! DEFINITION. The meanings of RSTRING and RSCROLL, the outer text layer (43_glyphrenderer.md). -/

namespace Sys2Proof.Machine

/-- RSTRING (R122): a code without a glyph rejects the whole request before any write. -/
def execRstring (text : List Nat) (startColumn : Int) (s : State) : Host.Outcome State Fault Refusal :=
  serveOpened s <|
    if textInRange s.params.font text then .next (renderText text (startColumn * 2) s)
    else .next (raise .range s)

/-- RSCROLL (R123, R124): operands are refused before the text is validated (R137). -/
def execRscroll (text : List Nat) (speed : Rat) (cycles : Int) (s : State) : Host.Outcome State Fault Refusal :=
  serveOpened s <|
    if speed ≤ 0 ∨ cycles < 0 then .refused .scrollOperands
    else if textInRange s.params.font text then .next (scrollCycles text speed cycles.toNat s)
    else .next (raise .range s)

end Sys2Proof.Machine
end

