-- ==== Sys2Proof/Machine/WireFrames.lean ====
section
/-! DEFINITION. The meanings of the opcode table's groups W and C: the block sends that frame to the board of the line it
is named on, by `send` (41_wordencoder.md R94; DESIGN CHOICE, log 9). LC is not written: only INIT writes it
(10_state.md R24, log 21). -/

namespace Sys2Proof.Machine

/-- Row CMD (R62, R91). -/
def execCmd (board : Board) (opcode : Byte) (s : State) : Host.Outcome State Fault Refusal :=
  serveOpened s (.next (sendCommand board opcode s))

/-- Row WR_NIB (R63, R92). -/
def execWrNib (board : Board) (addr : BitVec 6) (data : Nibble) (s : State) : Host.Outcome State Fault Refusal :=
  serveOpened s (.next (send board (nibbleWord (addr.setWidth 8) data) 14 s))

/-- Row WR_BYTE (R64, R93). -/
def execWrByte (board : Board) (addr : BitVec 6) (data : Byte) (s : State) : Host.Outcome State Fault Refusal :=
  serveOpened s (.next (send board (byteWord (addr.setWidth 8) data) 18 s))

/-- Row SYSTEM_DISABLE (R66). -/
def execSystemDisable (board : Board) (s : State) : Host.Outcome State Fault Refusal :=
  serveOpened s (.next (sendCommand board s.params.opcSystemDisable s))

/-- Row SET_COMMON_8NMOS (R66). -/
def execSetCommon8Nmos (board : Board) (s : State) : Host.Outcome State Fault Refusal :=
  serveOpened s (.next (sendCommand board s.params.opcSetCommon8Nmos s))

/-- Row SYSTEM_ENABLE (R66). -/
def execSystemEnable (board : Board) (s : State) : Host.Outcome State Fault Refusal :=
  serveOpened s (.next (sendCommand board s.params.opcSystemEnable s))

/-- Row LED_ON (R66). -/
def execLedOn (board : Board) (s : State) : Host.Outcome State Fault Refusal :=
  serveOpened s (.next (sendCommand board s.params.opcLedOn s))

/-- Row PWM_16_GRAYSCALE (R66). -/
def execPwm16Grayscale (board : Board) (s : State) : Host.Outcome State Fault Refusal :=
  serveOpened s (.next (sendCommand board s.params.opcPwm16Grayscale s))

end Sys2Proof.Machine
end

