-- ==== Sys2Proof/Machine/WordEncoder.lean ====
section
/-! DEFINITION. The meanings of ENC_CMD, ENC_NIB, ENC_BYTE (41_wordencoder.md). -/

namespace Sys2Proof.Machine

/-- ENC_CMD (R91): selectors 2 and 3 are `E_BAD_BOARD`. -/
def execEncCmd (board : BitVec 2) (opcode : Byte) (s : State) : Host.Outcome State Fault Refusal :=
  serveOpened s <|
    match boardOfSelector board with
    | none => .next (raise .badBoard s)
    | some b => .next (sendCommand b opcode s)

/-- ENC_NIB (R92). -/
def execEncNib (address : Byte) (nibble : Nibble) (s : State) : Host.Outcome State Fault Refusal :=
  serveOpened s (.next (encodeNibble address nibble s))

/-- ENC_BYTE (R93). -/
def execEncByte (address : Byte) (data : Byte) (s : State) : Host.Outcome State Fault Refusal :=
  serveOpened s (.next (encodeByte address data s))

end Sys2Proof.Machine
end

