-- ==== Sys2Proof/Machine/Dispatch.lean ====
section
/-! DEFINITION. One arm per instruction. -/

namespace Sys2Proof.Machine

def exec (i : Instr) (s : State) : Host.Outcome State Fault Refusal :=
  match i with
  | .cmd b o => Sys2Proof.Machine.execCmd b o s
  | .wrNib b a d => Sys2Proof.Machine.execWrNib b a d s
  | .wrByte b a d => Sys2Proof.Machine.execWrByte b a d s
  | .systemDisable b => Sys2Proof.Machine.execSystemDisable b s
  | .setCommon8Nmos b => Sys2Proof.Machine.execSetCommon8Nmos b s
  | .systemEnable b => Sys2Proof.Machine.execSystemEnable b s
  | .ledOn b => Sys2Proof.Machine.execLedOn b s
  | .pwm16Grayscale b => Sys2Proof.Machine.execPwm16Grayscale b s
  | .transmit w n c => Sys2Proof.Machine.execTransmit w n c s
  | .encCmd b o => Sys2Proof.Machine.execEncCmd b o s
  | .encNib a d => Sys2Proof.Machine.execEncNib a d s
  | .encByte a d => Sys2Proof.Machine.execEncByte a d s
  | .openLines => Sys2Proof.Machine.execOpen s
  | .initBoard b => Sys2Proof.Machine.execInit b s
  | .clear => Sys2Proof.Machine.execClear s
  | .selftest => Sys2Proof.Machine.execSelftest s
  | .wrcol a v => Sys2Proof.Machine.execWrcol a v s
  | .wrhalf a v => Sys2Proof.Machine.execWrhalf a v s
  | .teardown => Sys2Proof.Machine.execTeardown s
  | .rstring t c => Sys2Proof.Machine.execRstring t c s
  | .rscroll t v n => Sys2Proof.Machine.execRscroll t v n s

end Sys2Proof.Machine
end

