-- ==== Sys2Proof/Machine/Step.lean ====
section
/-! DEFINITION. One step: serve the request at the head of the stream (00_scope.md R13). -/

namespace Sys2Proof.Machine

/-- The refusal a rejected input ends in (60_exceptions.md R141 (d), log 9). -/
def Refusal.ofReject : Reject → Refusal
  | .reservedRequestCode => .reservedRequestCode
  | .malformedFrame => .malformedFrame

/-- Serve the next request to its end; with no request presented nothing happens (DESIGN CHOICE, log 7). -/
def step (s : State) : Host.Outcome State Fault Refusal :=
  match s.requests with
  | [] => .next s
  | x :: rest =>
    match decode s.params x with
    | .ok i => exec i { s with requests := rest }
    | .error r => .refused (Refusal.ofReject r)

/-- `s` with a table word presented as the next request (log 11). -/
def State.withFetchWord (s : State) (nbits w : Nat) : State :=
  { s with requests := presentTableWord nbits w :: s.requests }

end Sys2Proof.Machine
end

