-- ==== Sys2Proof/Machine/Observe.lean ====
section
/-! DEFINITION. The derived views of the trace: the waveform (10_state.md R26) and the frames a chip-select line carries
(30_encoding.md R68), and what those frames make of a chip's RAM. -/

namespace Sys2Proof.Machine

/-- `LEVEL` as a function of the trace (10_state.md R25). -/
def levelsOf (trace : List Event) : Levels := trace.foldl Levels.after []

/-- The waveform: LEVEL after each event (R26). -/
def waveform (trace : List Event) : List Levels :=
  (List.range trace.length).map (fun n => levelsOf (trace.take (n + 1)))

/-- The state of the one pass of R68 over a trace: the current LEVEL, the bits of the frame that is open, if one is, and the
frames that have closed. -/
structure Scan where
  levels : Levels
  current : Option (List Bool)
  closed : List (List Bool)
deriving DecidableEq, Repr

/-- One event of the pass, for chip-select pin `cs`. The bit is taken on the rising edge of WR (R68; PRESUMED, G2, log 28:
either edge gives the same bits). -/
def Scan.step (c : Cfg) (cs : Pin) (x : Scan) (e : Event) : Scan :=
  let levels := Levels.after x.levels e
  match e, x.current with
  | .pinWrite p l, none =>
    if p = cs ∧ l = .low then { x with levels := levels, current := some [] } else { x with levels := levels }
  | .pinWrite p l, some bits =>
    if p = cs ∧ l = .high then { levels := levels, current := none, closed := x.closed ++ [bits] }
    else if p = c.wr ∧ l = .high ∧ Levels.line x.levels c.wr = .driven .low then
      { x with levels := levels, current := some (bits ++ [Levels.line x.levels c.data == .driven .high]) }
    else { x with levels := levels }
  | _, _ => { x with levels := levels }

/-- The pass over a whole trace. -/
def scan (c : Cfg) (cs : Pin) (trace : List Event) : Scan :=
  trace.foldl (Scan.step c cs) { levels := [], current := none, closed := [] }

/-- `frames(T, c)` (R68): the closed frames of a chip-select line, in order, each first bit first. -/
def frames (c : Cfg) (trace : List Event) (cs : Pin) : List (List Bool) := (scan c cs trace).closed

/-- The RAM that a list of frames received by the chip on board `b` leaves, nothing being known before. -/
def ramOfFrames (b : Board) (fs : List (List Bool)) : Memory :=
  fs.foldl (fun m bits => m.receive b bits) []

/-- The `Report` codes of a list of events. -/
def reports (es : List Event) : List ErrorCode :=
  es.filterMap (fun e => match e with
    | .report c => some c
    | _ => none)

/-- The pin an event drives. -/
def eventPin : Event → Option Pin
  | .configure p _ => some p
  | .pinWrite p _ => some p
  | .releaseAll => none
  | .delay _ => none
  | .report _ => none

/-- Serve a list of instructions in a row, stopping at the first that is refused. -/
def execAll (run : Instr → State → Host.Outcome State Fault Refusal) :
    List Instr → State → Host.Outcome State Fault Refusal
  | [], s => .next s
  | i :: is, s =>
    match run i s with
    | .next t => execAll run is t
    | .fault f => .fault f
    | .refused r => .refused r

end Sys2Proof.Machine
end

