-- ==== Sys2Proof/Safety.lean ====
section
/-! DEFINITION. What a safe run is: the invariants of 10_state.md R31, the canonical forms, and the consistency of LEVEL and
of the ghost RAM with the trace, in the terms the statements use. -/

namespace Sys2Proof.Machine

/-- The block takes data and command requests: the configuration is well-formed and `PHASE = OPEN` (R110). -/
def Ready (s : State) : Prop := configWf s.params s.cfg = true ∧ s.phase = .opened

/-- The invariants between two requests. -/
structure Inv (s : State) : Prop where
  /-- LEVEL is in canonical form. -/
  levels_wf : Table.wf s.levels = true
  /-- The ghost RAM is in canonical form, within the 128 locations. -/
  ram_wf : Memory.wf s.ram = true
  /-- LEVEL is a function of the trace (R25). -/
  levels_trace : s.levels = levelsOf s.trace
  /-- R31 (a), WR and DATA: driven while `PHASE = OPEN`. -/
  driven : s.phase = .opened → ∀ p, p = s.cfg.wr ∨ p = s.cfg.data → Levels.line s.levels p ≠ .z
  /-- R31 (a), chip-selects: high while `PHASE = OPEN`, provided `INIT_CS = HIGH`. -/
  cs_high : s.phase = .opened → s.params.initCs = .high →
    ∀ b, wired s.cfg b = true → Levels.line s.levels (resolve s.cfg b) = .driven .high
  /-- R31 (c): nothing is driven outside `PHASE = OPEN`. -/
  released_z : s.phase ≠ .opened → ∀ p, Levels.line s.levels p = .z
  /-- R31 (d): only a wired board leaves `UNINIT`. -/
  lc_wired : ∀ b, s.lc b ≠ .uninit → wired s.cfg b = true
  /-- No frame is open between two requests (R13, R68). -/
  frames_closed : ∀ b, wired s.cfg b = true → (scan s.cfg (resolve s.cfg b) s.trace).current = none

/-- The ghost RAM of every board is what the frames on its chip-select line make of it, and an unwired board's is wholly
unspecified (R46 to R48, R68). -/
def RamIsFrames (s : State) : Prop :=
  ∀ b a, s.ram.read b a =
    if wired s.cfg b then (ramOfFrames b (frames s.cfg s.trace (resolve s.cfg b))).read b a else none

/-- R31 (b): at no point of the trace are the chip-selects of two wired boards low. -/
def NeverBothLow (s : State) : Prop :=
  wired s.cfg .board0 = true → wired s.cfg .board1 = true → ∀ n, ¬ (Levels.line (levelsOf (s.trace.take n)) s.cfg.cs0 = .driven .low ∧
    Levels.line (levelsOf (s.trace.take n)) s.cfg.cs1 = .driven .low)

/-! ## The terms of the statements -/

/-- A CMD12 frame in sending order: `100 oooooooo 0` (30_encoding.md R62). -/
def commandBits (opcode : Byte) : List Bool :=
  [true, false, false] ++ (List.range 8).map (fun k => opcode.getLsbD (7 - k)) ++ [false]

/-- A NIB14 frame in sending order: `101 0aaaaaa dddd` (R63). -/
def nibbleBits (a : BitVec 6) (d : Nibble) : List Bool :=
  [true, false, true, false] ++ (List.range 6).map (fun k => a.getLsbD (5 - k)) ++
    (List.range 4).map (fun k => d.getLsbD (3 - k))

/-- A BYTE18 frame in sending order: `101 0aaaaaa dddddddd` (R64). -/
def byteBits (a : BitVec 6) (d : Byte) : List Bool :=
  [true, false, true, false] ++ (List.range 6).map (fun k => a.getLsbD (5 - k)) ++
    (List.range 8).map (fun k => d.getLsbD (7 - k))

/-- The events of a frame to a board: nothing when it is not wired (60_exceptions.md R132). -/
def sentTo (c : Cfg) (b : Board) (frame : List Bool) : List Event :=
  if wired c b then frameEvents c (resolve c b) frame else []

/-- The five frames of INIT and its delay (42_displaycontroller.md R101). -/
def initEvents (c : Cfg) (p : Params) (b : Board) : List Event :=
  Config.initSeq.flatMap (fun n => sentTo c b (commandBits (p.opcode n))) ++ [.delay p.tSettle]

/-- The board of a byte or nibble write to a logical address in its range (20_memory.md R41, R42). -/
def routedBoard (address : Nat) : Board := if address ≤ 0x3F then .board0 else .board1

/-- The frames of one value written to 0, 2, ..., 126 (R103, R104). -/
def fillEvents (c : Cfg) (v : Byte) : List Event :=
  (List.range 64).flatMap (fun k => sentTo c (routedBoard (2 * k)) (byteBits (BitVec.ofNat 6 (2 * k)) v))

/-- `t` is `s` with the events `es` put out; only the trace, LEVEL and the ghost RAM may differ. -/
structure Puts (es : List Event) (s t : State) : Prop where
  cfg : t.cfg = s.cfg
  params : t.params = s.params
  requests : t.requests = s.requests
  phase : t.phase = s.phase
  lc0 : t.lc0 = s.lc0
  lc1 : t.lc1 = s.lc1
  trace : t.trace = s.trace ++ es
  levels : t.levels = es.foldl Levels.after s.levels

/-- `t` is `s` with one error reported and nothing else changed (60_exceptions.md R134). -/
def reported (c : ErrorCode) (s : State) : State := { s with trace := s.trace ++ [.report c] }

/-- The calls of WRCOL that rendering a text from a column makes, in order (43_glyphrenderer.md R121, R122). -/
def columnWrites (font : List Glyph) (text : List Nat) (startColumn : Int) : List Instr :=
  text.zipIdx.flatMap (fun e =>
    let a := startColumn * 2 + 12 * (e.2 : Int)
    match font[e.1 - 32]? with
    | none => []
    | some g => [.wrcol a (reverse8 g.g0), .wrcol (a + 2) (reverse8 g.g1), .wrcol (a + 4) (reverse8 g.g2),
        .wrcol (a + 6) (reverse8 g.g3), .wrcol (a + 8) (reverse8 g.g4), .wrcol (a + 10) 0x00])

/-- `t` is reached from `s` by rendering the text at each offset in turn, each rendering followed by a delay (R123). -/
def ScrollRun (text : List Nat) (speed : Rat) : List Int → State → State → Prop
  | [], s, t => t = s
  | o :: os, s, t => ∃ u, exec (.rstring text o) s = .next u ∧ ScrollRun text speed os (emit [.delay (1 / speed)] u) t

/-- A run is complete when `PHASE = RELEASED` (70_reset_and_hazards.md R153). -/
def Complete (s : State) : Prop := s.phase = .released

end Sys2Proof.Machine
end

