-- ==== Sys2Proof/Certificates/Slice0/Obligations.lean ====
section
/-! DEFINITION. The statements for the provers. A statement that says what a write leaves in a chip's RAM takes
`LC = ENABLED` as a premise, as 70_reset_and_hazards.md R156 asks (log 17); `StepKeepsRamAsFramesSay` alone does not, since
it is about the definition of the ghost RAM. Where a statement speaks of every instruction, the frames of groups W and C are
among them with the meaning of log 9, which is the model's choice. -/

open Sys2Proof Sys2Proof.Machine

/-! ## Decoding and stepping -/

/-- One step serves the request at the head of the stream, whole (00_scope.md R13). That the stream stands in State as a
queue is the model's choice (log 7). -/
def Obligations.StepRunsTheDecodedInstruction : Prop :=
  ∀ (s : State) (x : Presented) (rest : List Presented) (i : Instr),
    s.requests = x :: rest → decode s.params x = .ok i → step s = exec i { s with requests := rest }

/-- Request codes 0, 14, 15 are refused (30_encoding.md R69 (f), decision D28). That a presented frame of none of the three
formats is refused, and that nothing happens while nothing is presented, are the model's choices (log 9, log 7). -/
def Obligations.StepRefusesWhatIsNoInstruction : Prop :=
  (∀ (s : State) (op : BitVec 4) (f : Fields) (rest : List Presented), s.requests = .request op f :: rest →
    op = 0 ∨ op = 14 ∨ op = 15 → step s = .refused .reservedRequestCode) ∧
  (∀ (s : State) (b : Board) (len v : Nat) (rest : List Presented), s.requests = .frame b len v :: rest →
    ¬ (len = 12 ∧ v < 2 ^ 12 ∧ v &&& 0xE01 = 0x800) → ¬ (len = 14 ∧ v < 2 ^ 14 ∧ v &&& 0x3C00 = 0x2800) →
    ¬ (len = 18 ∧ v < 2 ^ 18 ∧ v &&& 0x3C000 = 0x28000) → step s = .refused .malformedFrame) ∧
  (∀ s : State, s.requests = [] → step s = .next s)

/-- Decoding what the encoder writes gives the instruction back, for every well-formed instruction, every operand value and
every choice of the parameters, `ADDR_W` and `PIN_W` included (30_encoding.md R61 to R65, R70, R71). Which instruction a
command frame with a named opcode is, and so what well-formed means for CMD and group C, is the model's choice (log 10); that
the port is presented as a record of fields is log 8. Well-formed leaves out CMD with a named opcode and a named command
whose opcode an earlier name has, which `OverlappingFramesDecodeToTheFirstName` states, and operands that the port's widths
cannot present: a column address beyond `ADDR_W` bits, a chip-select beyond `PIN_W` bits. -/
def Obligations.DecodeOfEncode : Prop :=
  ∀ (p : Params) (i : Instr), i.wf p = true → decode p (encode p i) = .ok i

/-- The command frames that rows CMD and group C share (30_encoding.md R62, R66, R73): one with a named opcode decodes to
the first name of INIT_SEQ that has it, whichever instruction it was encoded from. That the named row wins, and the first
name, is the model's choice (log 10). -/
def Obligations.OverlappingFramesDecodeToTheFirstName : Prop :=
  ∀ (p : Params) (b : Board),
    (∀ o n, p.named o = some n → decode p (encode p (.cmd b o)) = .ok (n.instr b)) ∧
    (∀ n : CommandName, ∃ m, p.named (p.opcode n) = some m ∧ p.opcode m = p.opcode n ∧
      decode p (encode p (n.instr b)) = .ok (m.instr b))

/-- Whatever decodes is well-formed, and a frame that decodes is the one frame of its instruction. For a command frame both
rest on the model's choice that a named opcode is read as the named command (log 10): rows CMD and group C overlap, and
neither R67 nor R73 says which wins. -/
def Obligations.FramesHaveOneMeaning : Prop :=
  (∀ (p : Params) (x : Presented) (i : Instr), decode p x = .ok i → i.wf p = true) ∧
  (∀ (p : Params) (b : Board) (len v : Nat) (i : Instr),
    decode p (.frame b len v) = .ok i → encode p i = .frame b len v)

/-- A few words written out from 30_encoding.md R62 to R66 and R71. The opcodes of group C are the defaults of R8, which
are general knowledge (log 3), and that the fourth word, which also fits row CMD, is the named command is the model's choice
(log 10). -/
def Obligations.SampleWordsDecode : Prop :=
  decode Params.default (.frame .board0 12 0b100_01010101_0) = .ok (.cmd .board0 0x55) ∧
  decode Params.default (.frame .board0 14 0b101_0_010101_0011) = .ok (.wrNib .board0 0x15 0x3) ∧
  decode Params.default (.frame .board1 18 0b101_0_111110_10000001) = .ok (.wrByte .board1 0x3E 0x81) ∧
  decode Params.default (.frame .board0 12 0b100_10101111_0) = .ok (.pwm16Grayscale .board0) ∧
  decode Params.default (.request 9 { Fields.zero with column := 0xFFFE, byteValue := 0xAA }) = .ok (.wrcol (-2) 0xAA) ∧
  decode Params.default (.request 12 { Fields.zero with text := [65], startColumn := -5 }) = .ok (.rstring [65] (-5))

/-- The three conceptual words and the bits of them that are sent (30_encoding.md R62, R63, R64). -/
def Obligations.WireWordLayouts : Prop :=
  (∀ o : Byte, (commandWord o).toNat = (0b100 <<< 13 ||| o.toNat <<< 5) ∧
    sentBits (commandWord o) 12 = commandBits o) ∧
  (∀ (a : Byte) (d : Nibble),
    (nibbleWord a d).toNat = (0b101 <<< 13 ||| (a.toNat &&& 0x3F) <<< 6 ||| (d.toNat &&& 0xF) <<< 2) ∧
    sentBits (nibbleWord a d) 14 = nibbleBits (a.setWidth 6) d) ∧
  (∀ (a : Byte) (d : Byte),
    (byteWord a d).toNat = (0b101 <<< 15 ||| (a.toNat &&& 0x3F) <<< 8 ||| d.toNat) ∧
    sentBits (byteWord a d) 18 = byteBits (a.setWidth 6) d)

/-! ## Reset and invariants -/

/-- The values of 10_state.md R30 that the spec gives (all but LC's are its decision D25), and the one start-up order of
70_reset_and_hazards.md R151: OPEN is the only request taken, beside TEARDOWN as a no-op. That OPEN and TEARDOWN are taken at all needs the reset configuration, a choice (log 2, 29). -/
def Obligations.ResetLeavesTheBlockClosed : Prop :=
  State.reset.phase = .closed ∧ State.reset.lc0 = .uninit ∧ State.reset.lc1 = .uninit ∧
  (∀ p, Levels.line State.reset.levels p = .z) ∧ State.reset.trace = [] ∧
  (∀ b a, State.reset.ram.read b a = none) ∧
  (∀ i t, exec i State.reset = .next t → i = .openLines ∨ (i = .teardown ∧ t = State.reset))

/-- The invariants hold at reset, whose inputs are the model's choice (log 2, 3, 4, 5, 29). -/
def Obligations.InvariantsHoldAtReset : Prop :=
  Inv State.reset ∧ RamIsFrames State.reset ∧ NeverBothLow State.reset

/-- Every step keeps the invariants of 10_state.md R31 (a), (c), (d), the canonical forms, LEVEL as a function of the trace
(R25), and "no frame is left open". -/
def Obligations.StepKeepsTheInvariants : Prop :=
  ∀ s t : State, Inv s → step s = .next t → Inv t

/-- Every step keeps: the ghost RAM of each chip is exactly what the frames on its chip-select line, read off the trace by
the pass of 30_encoding.md R68, make of it. This is about the ghost RAM's definition and takes no premise on LC: it rests on
the model's readings of what a frame does to the ghost RAM of a board that is not ENABLED (log 17), by a direct TRANSMIT
(log 18), at chip address 63 (log 16), by a command (log 14) or malformed frame (log 15), and on general knowledge for the
half order of a byte (log 13) and the sampling edge (log 28). -/
def Obligations.StepKeepsRamAsFramesSay : Prop :=
  ∀ s t : State, Inv s → RamIsFrames s → step s = .next t → RamIsFrames t

/-- Every step keeps 10_state.md R31 (b), "written to sequentially, never simultaneously", at every point of the trace. The
premise `INIT_CS = HIGH`, which R31 states for (a), is needed for (b) too (log 26). -/
def Obligations.StepNeverLowersBothChipSelects : Prop :=
  ∀ s t : State, Inv s → s.params.initCs = .high → NeverBothLow s → step s = .next t → NeverBothLow t

/-! ## Refusals -/

/-- Which requests each phase takes (42_displaycontroller.md R110, decision D7), and the refusal of every request under an
ill-formed configuration (60_exceptions.md R141 (e), D4; that pins of more than PIN_W bits are ill-formed is log 29). For the frames of groups W and C it is the model's choice
(log 9). -/
def Obligations.PhaseDecidesWhatIsTaken : Prop :=
  ∀ (s : State) (i : Instr),
    (configWf s.params s.cfg = false → exec i s = .refused .illFormedConfiguration) ∧
    (configWf s.params s.cfg = true →
      (s.phase = .closed → i ≠ .openLines → i ≠ .teardown → exec i s = .refused .wrongPhase) ∧
      (s.phase = .opened → exec .openLines s = .refused .wrongPhase) ∧
      (s.phase = .opened → i ≠ .openLines → exec i s ≠ .refused .wrongPhase) ∧
      (s.phase = .released → i ≠ .teardown → exec i s = .refused .wrongPhase))

/-- In `PHASE = OPEN` the only refusals are the foreign chip-select of TRANSMIT (40_bitserializer.md R86, D11) and the
operands of RSCROLL (43_glyphrenderer.md R124, D23), and both come before any error (60_exceptions.md R137, log 19). -/
def Obligations.OnlyTwoRequestsAreRefusedWhenOpen : Prop :=
  ∀ s : State, Ready s →
    (∀ i r, i ≠ .openLines → exec i s = .refused r →
      (∃ w n c, i = .transmit w n c ∧ c ≠ 0 ∧ c ≠ s.cfg.cs0 ∧ c ≠ s.cfg.cs1 ∧ r = .foreignChipSelect) ∨
      (∃ x v n, i = .rscroll x v n ∧ (v ≤ 0 ∨ n < 0) ∧ r = .scrollOperands)) ∧
    (∀ w n c, c ≠ 0 → c ≠ s.cfg.cs0 → c ≠ s.cfg.cs1 → exec (.transmit w n c) s = .refused .foreignChipSelect) ∧
    (∀ x v n, v ≤ 0 ∨ n < 0 → exec (.rscroll x v n) s = .refused .scrollOperands)

/-! ## BitSerializer -/

/-- TRANSMIT (40_bitserializer.md R80, R81): validation, then the events of steps 1 to 4, most significant bit first. That
chip-select 0 is reported whatever the length is the order of the two checks, the spec's decision D10 (R84, log 19). -/
def Obligations.TransmitSendsTheWordsBits : Prop :=
  ∀ (s : State) (w : WireWord) (n : BitVec 5), Ready s →
    (∀ b : Board, wired s.cfg b = true → n = 12 ∨ n = 14 ∨ n = 18 →
      ∃ t, exec (.transmit w n (resolve s.cfg b)) s = .next t ∧
        Puts ([.pinWrite s.cfg.wr .high, .pinWrite (resolve s.cfg b) .low] ++
          (List.range n.toNat).flatMap (fun k =>
            [.pinWrite s.cfg.data (if w.getLsbD ((if n = 18 then 17 else 15) - k) then .high else .low),
              .pinWrite s.cfg.wr .low, .pinWrite s.cfg.wr .high]) ++
          [.pinWrite (resolve s.cfg b) .high]) s t) ∧
    exec (.transmit w n 0) s = .next (reported .csUnconfigured s) ∧
    (∀ b : Board, wired s.cfg b = true → ¬ (n = 12 ∨ n = 14 ∨ n = 18) →
      exec (.transmit w n (resolve s.cfg b)) s = .next (reported .badLength s))

/-- 40_bitserializer.md R82 (derived there): `3n + 3` events, `n` WR pulses, one chip-select bracket, and exactly one more
frame on that chip-select line, equal to the bits of the word from its highest sent position. The edge at which the pass of
R68 takes a bit is general knowledge and does not matter (log 28). -/
def Obligations.TransmitAddsOneFrame : Prop :=
  ∀ (s : State) (b : Board) (w : WireWord) (n : BitVec 5),
    Inv s → Ready s → wired s.cfg b = true → n = 12 ∨ n = 14 ∨ n = 18 →
    ∃ t es, exec (.transmit w n (resolve s.cfg b)) s = .next t ∧ t.trace = s.trace ++ es ∧
      es.length = 3 * n.toNat + 3 ∧
      es.count (.pinWrite s.cfg.wr .low) = n.toNat ∧
      es.count (.pinWrite (resolve s.cfg b) .low) = 1 ∧ es.count (.pinWrite (resolve s.cfg b) .high) = 1 ∧
      frames t.cfg t.trace (resolve s.cfg b) = frames s.cfg s.trace (resolve s.cfg b) ++
        [(List.range n.toNat).map (fun k => w.getLsbD ((if n = 18 then 17 else 15) - k))] ∧
      (∀ b', b' ≠ b → frames t.cfg t.trace (resolve s.cfg b') = frames s.cfg s.trace (resolve s.cfg b') ∨
        wired s.cfg b' = false)

/-- The lines after a completed TRANSMIT (10_state.md R27, derived there): WR and the chip-select high, DATA at the last
bit, every other line as before. -/
def Obligations.LinesAfterTransmit : Prop :=
  ∀ (s t : State) (b : Board) (w : WireWord) (n : BitVec 5), wired s.cfg b = true → n = 12 ∨ n = 14 ∨ n = 18 →
    exec (.transmit w n (resolve s.cfg b)) s = .next t →
    Levels.line t.levels s.cfg.wr = .driven .high ∧ Levels.line t.levels (resolve s.cfg b) = .driven .high ∧
    Levels.line t.levels s.cfg.data =
      .driven (if w.getLsbD (if n = 18 then 0 else if n = 14 then 2 else 4) then .high else .low) ∧
    (∀ p, p ≠ s.cfg.wr → p ≠ s.cfg.data → p ≠ resolve s.cfg b → Levels.line t.levels p = Levels.line s.levels p)

/-! ## WordEncoder -/

/-- ENC_CMD (41_wordencoder.md R91, R94): one CMD12 frame to the selected board when it is wired, whatever the opcode;
selectors 2 and 3 are reported. The board operand, its two bits and its invalid values are the spec's decision D8 (R90). -/
def Obligations.EncCmdSendsTheCommandFrame : Prop :=
  ∀ (s : State) (sel : BitVec 2) (o : Byte), Ready s →
    (sel = 0 → ∃ t, exec (.encCmd sel o) s = .next t ∧ Puts (sentTo s.cfg .board0 (commandBits o)) s t) ∧
    (sel = 1 → ∃ t, exec (.encCmd sel o) s = .next t ∧ Puts (sentTo s.cfg .board1 (commandBits o)) s t) ∧
    (sel = 2 ∨ sel = 3 → exec (.encCmd sel o) s = .next (reported .badBoard s))

/-- ENC_NIB (20_memory.md R42): the NIB14 frame goes to BOARD0 for addresses 0 to 0x3F and to BOARD1 for 0x40 to 0xFF, and
to nothing else. -/
def Obligations.EncNibRoutesEveryAddress : Prop :=
  ∀ (s : State) (a : Byte) (d : Nibble), Ready s →
    (a.toNat ≤ 0x3F → ∃ t, exec (.encNib a d) s = .next t ∧
      Puts (sentTo s.cfg .board0 (nibbleBits (a.setWidth 6) d)) s t) ∧
    (0x40 ≤ a.toNat → ∃ t, exec (.encNib a d) s = .next t ∧
      Puts (sentTo s.cfg .board1 (nibbleBits (a.setWidth 6) d)) s t)

/-- ENC_BYTE (20_memory.md R41): the BYTE18 frame goes to BOARD0 for addresses 0 to 0x3F and to BOARD1 for 0x40 to 0x7F;
from 0x80 on nothing is sent and nothing is reported. -/
def Obligations.EncByteRoutesTheLowerHalf : Prop :=
  ∀ (s : State) (a : Byte) (d : Byte), Ready s →
    (a.toNat ≤ 0x3F → ∃ t, exec (.encByte a d) s = .next t ∧
      Puts (sentTo s.cfg .board0 (byteBits (a.setWidth 6) d)) s t) ∧
    (0x40 ≤ a.toNat → a.toNat ≤ 0x7F → ∃ t, exec (.encByte a d) s = .next t ∧
      Puts (sentTo s.cfg .board1 (byteBits (a.setWidth 6) d)) s t) ∧
    (0x80 ≤ a.toNat → exec (.encByte a d) s = .next s)

/-- SilentSkip (60_exceptions.md R132): what is addressed to a board that is not wired changes nothing at all, and no
operation puts out an event that names an unwired board's pin. -/
def Obligations.UnwiredBoardIsSkippedSilently : Prop :=
  ∀ s : State, Ready s →
    (∀ b, wired s.cfg b = false →
      (∀ o, exec (.encCmd (BitVec.ofNat 2 (boardIndex b)) o) s = .next s) ∧
      (∀ (a : Byte) d, routedBoard a.toNat = b → exec (.encNib a d) s = .next s) ∧
      (∀ (a : Byte) d, routedBoard a.toNat = b → exec (.encByte a d) s = .next s) ∧
      exec (.initBoard (BitVec.ofNat 2 (boardIndex b))) s = .next s ∧
      (∀ (a : Byte) d, routedBoard a.toNat = b → exec (.wrcol a.toNat d) s = .next s) ∧
      (∀ (a : Byte) d, routedBoard a.toNat = b → exec (.wrhalf a.toNat d) s = .next s) ∧
      (∀ i t es, exec i s = .next t → t.trace = s.trace ++ es → ∀ e ∈ es, eventPin e ≠ some (resolve s.cfg b))) ∧
    (wired s.cfg .board0 = false → wired s.cfg .board1 = false → exec .clear s = .next s ∧
      (∀ x c, (∀ ch ∈ x, 32 ≤ ch ∧ ch - 32 < s.params.font.length) → exec (.rstring x c) s = .next s))

/-! ## Groups W and C -/

/-- A frame of group W runs as `send` of that frame to the board of its line (41_wordencoder.md R94; that a frame is an
instruction with this meaning is the model's choice, log 9). -/
def Obligations.WireFramesAreSent : Prop :=
  ∀ (s : State) (b : Board), Ready s →
    (∀ o, ∃ t, exec (.cmd b o) s = .next t ∧ Puts (sentTo s.cfg b (commandBits o)) s t) ∧
    (∀ a d, ∃ t, exec (.wrNib b a d) s = .next t ∧ Puts (sentTo s.cfg b (nibbleBits a d)) s t) ∧
    (∀ a d, ∃ t, exec (.wrByte b a d) s = .next t ∧ Puts (sentTo s.cfg b (byteBits a d)) s t)

/-- A named command of group C sends the CMD12 frame of its opcode parameter (30_encoding.md R66) and leaves the lifecycle
alone, which only INIT writes (10_state.md R24); the model's choice of meaning is log 9 and log 21. -/
def Obligations.NamedCommandsSendTheirOpcode : Prop :=
  ∀ (s : State) (b : Board), Ready s →
    (∃ t, exec (.systemDisable b) s = .next t ∧ Puts (sentTo s.cfg b (commandBits s.params.opcSystemDisable)) s t) ∧
    (∃ t, exec (.setCommon8Nmos b) s = .next t ∧ Puts (sentTo s.cfg b (commandBits s.params.opcSetCommon8Nmos)) s t) ∧
    (∃ t, exec (.systemEnable b) s = .next t ∧ Puts (sentTo s.cfg b (commandBits s.params.opcSystemEnable)) s t) ∧
    (∃ t, exec (.ledOn b) s = .next t ∧ Puts (sentTo s.cfg b (commandBits s.params.opcLedOn)) s t) ∧
    (∃ t, exec (.pwm16Grayscale b) s = .next t ∧ Puts (sentTo s.cfg b (commandBits s.params.opcPwm16Grayscale)) s t)

/-- A group W frame does what the encoder's request for the same fields does. -/
def Obligations.WireFramesAgreeWithEncoders : Prop :=
  ∀ (s : State) (b : Board) (o : Byte) (a : BitVec 6) (d : Nibble) (v : Byte),
    exec (.cmd b o) s = exec (.encCmd (BitVec.ofNat 2 (boardIndex b)) o) s ∧
    exec (.wrNib b a d) s = exec (.encNib (BitVec.ofNat 8 (location b a)) d) s ∧
    exec (.wrByte b a v) s = exec (.encByte (BitVec.ofNat 8 (location b a)) v) s

/-! ## DisplayController -/

/-- OPEN (42_displaycontroller.md R100; the order, the levels and the skipping of an unwired chip-select are the spec's
decisions D5, D6). -/
def Obligations.OpenConfiguresTheLines : Prop :=
  ∀ s : State, configWf s.params s.cfg = true → s.phase = .closed →
    ∃ t, exec .openLines s = .next t ∧ t.phase = .opened ∧
      t.trace = s.trace ++ ([.configure s.cfg.wr s.params.initWr, .configure s.cfg.data s.params.initData] ++
        (if wired s.cfg .board0 then [.configure s.cfg.cs0 s.params.initCs] else []) ++
        (if wired s.cfg .board1 then [.configure s.cfg.cs1 s.params.initCs] else [])) ∧
      Levels.line t.levels s.cfg.wr = .driven s.params.initWr ∧
      Levels.line t.levels s.cfg.data = .driven s.params.initData ∧
      (∀ b, wired s.cfg b = true → Levels.line t.levels (resolve s.cfg b) = .driven s.params.initCs) ∧
      (∀ p, p ≠ s.cfg.wr → p ≠ s.cfg.data → (∀ b, wired s.cfg b = true → p ≠ resolve s.cfg b) →
        Levels.line t.levels p = Levels.line s.levels p) ∧
      t.cfg = s.cfg ∧ t.params = s.params ∧ t.requests = s.requests ∧ t.lc0 = s.lc0 ∧ t.lc1 = s.lc1 ∧ t.ram = s.ram

/-- INIT (42_displaycontroller.md R101; the lifecycle transitions and the no-op on an unwired board are the spec's
decisions D15, D16). -/
def Obligations.InitSendsFiveCommandsAndEnables : Prop :=
  ∀ (s : State) (sel : BitVec 2), Ready s →
    (∀ b, sel = BitVec.ofNat 2 (boardIndex b) → wired s.cfg b = true →
      ∃ u, Puts (initEvents s.cfg s.params b) s u ∧ exec (.initBoard sel) s = .next (setLc b .enabled u)) ∧
    (∀ b, sel = BitVec.ofNat 2 (boardIndex b) → wired s.cfg b = false → exec (.initBoard sel) s = .next s) ∧
    (sel = 2 ∨ sel = 3 → exec (.initBoard sel) s = .next (reported .badBoard s))

/-- CLEAR (42_displaycontroller.md R103): the value 0 to every even address 0 to 126, in ascending order. -/
def Obligations.ClearWritesZeroEverywhere : Prop :=
  ∀ s : State, Ready s → ∃ t, exec .clear s = .next t ∧ Puts (fillEvents s.cfg 0x00) s t

/-- SELFTEST (42_displaycontroller.md R104; the address list is the spec's decision D17): all on, the pause, all off. -/
def Obligations.SelftestLightsThenClears : Prop :=
  ∀ s : State, Ready s → ∃ t, exec .selftest s = .next t ∧
    Puts (fillEvents s.cfg 0xFF ++ [.delay s.params.tSelftest] ++ fillEvents s.cfg 0x00) s t

/-- WRCOL and WRHALF (42_displaycontroller.md R105, R106; the silent drop is the spec's decision D19): inside 0 to 255 the
encoder's request, outside nothing. -/
def Obligations.ColumnWritesPassThrough : Prop :=
  ∀ (s : State) (a : Int) (v : Byte) (d : Nibble), Ready s →
    (0 ≤ a → a ≤ 255 →
      (∃ t, exec (.wrcol a v) s = .next t ∧ exec (.encByte (BitVec.ofInt 8 a) v) s = .next t) ∧
      (∃ t, exec (.wrhalf a d) s = .next t ∧ exec (.encNib (BitVec.ofInt 8 a) d) s = .next t)) ∧
    (a < 0 ∨ 255 < a → exec (.wrcol a v) s = .next s ∧ exec (.wrhalf a d) s = .next s)

/-- TEARDOWN (42_displaycontroller.md R107; the no-op before OPEN is the spec's decision D21): clear, release every line,
once; LC is not changed, and a further TEARDOWN does nothing. -/
def Obligations.TeardownClearsAndReleasesOnce : Prop :=
  ∀ s : State, configWf s.params s.cfg = true →
    (s.phase = .opened → ∃ u t, exec .clear s = .next u ∧ exec .teardown s = .next t ∧
      t = { u with phase := .released, trace := u.trace ++ [.releaseAll], levels := [] } ∧
      exec .teardown t = .next t) ∧
    (s.phase ≠ .opened → exec .teardown s = .next s)

/-- STARTUP (42_displaycontroller.md R102; the order of the boards is the spec's decision D6): from CLOSED the three
requests complete, and every wired board is enabled. -/
def Obligations.StartupEnablesEveryWiredBoard : Prop :=
  ∀ s : State, configWf s.params s.cfg = true → s.phase = .closed →
    ∃ t, execAll exec startupRequests s = .next t ∧ t.phase = .opened ∧
      (∀ b, t.lc b = if wired s.cfg b then .enabled else s.lc b) ∧
      t.trace = s.trace ++ openEvents s.cfg s.params ++
        (if wired s.cfg .board0 then initEvents s.cfg s.params .board0 else []) ++
        (if wired s.cfg .board1 then initEvents s.cfg s.params .board1 else [])

/-! ## GlyphRenderer -/

/-- `reverse8` (43_glyphrenderer.md R120): the closed form equals the bit-by-bit reversal, which undoes itself. -/
def Obligations.ReverseEightIsBitReversal : Prop :=
  ∀ b : Byte, reverse8Formula b = (reverse8 b).toNat ∧ reverse8 (reverse8 b) = b ∧
    ∀ k : Fin 8, (reverse8 b).getLsbD k = b.getLsbD (7 - k)

/-- RSTRING (43_glyphrenderer.md R121, R122; the rejection of a bad code is the spec's decision D22): exactly the
`6 * len(text)` calls of WRCOL, in order; one report and nothing else when a code has no glyph. -/
def Obligations.RenderStringIsColumnWrites : Prop :=
  ∀ (s : State) (x : List Nat) (c : Int), Ready s →
    ((∀ ch ∈ x, 32 ≤ ch ∧ ch - 32 < s.params.font.length) →
      (columnWrites s.params.font x c).length = 6 * x.length ∧
      ∃ t, exec (.rstring x c) s = .next t ∧ execAll exec (columnWrites s.params.font x c) s = .next t) ∧
    ((∃ ch ∈ x, ch < 32 ∨ s.params.font.length ≤ ch - 32) →
      exec (.rstring x c) s = .next (reported .range s))

/-- RSCROLL (43_glyphrenderer.md R123): in every cycle the offsets 0 down to `-6 * len(text) + 1`, each rendered by RSTRING
and followed by a delay of `1 / speed` seconds; the text is validated once, before the first frame (D22). -/
def Obligations.ScrollRendersEveryOffset : Prop :=
  ∀ (s : State) (x : List Nat) (v : Rat) (n : Nat), Ready s → 0 < v →
    ((∀ ch ∈ x, 32 ≤ ch ∧ ch - 32 < s.params.font.length) →
      ∃ t, exec (.rscroll x v n) s = .next t ∧
        ScrollRun x v (List.replicate n ((List.range (6 * x.length)).map (fun k => -(k : Int)))).flatten s t) ∧
    ((∃ ch ∈ x, ch < 32 ∨ s.params.font.length ≤ ch - 32) →
      exec (.rscroll x v n) s = .next (reported .range s))

/-! ## The ghost RAM -/

/-- A nibble frame (20_memory.md R47) writes its one location, and every other location of both chips reads as before.
Premise `LC = ENABLED`: R156. The form WR_NIB, a frame as an instruction of its own, is the model's choice (log 9). -/
def Obligations.NibbleWriteStoresOneLocation : Prop :=
  ∀ (s : State) (a : Byte) (d : Nibble), Ready s → wired s.cfg (routedBoard a.toNat) = true →
    s.lc (routedBoard a.toNat) = .enabled →
    ∀ i, i = .encNib a d ∨ i = .wrhalf a.toNat d ∨ i = .wrNib (routedBoard a.toNat) (a.setWidth 6) d →
    ∃ t, exec i s = .next t ∧ ∀ b' a', t.ram.read b' a' =
      if b' = routedBoard a.toNat ∧ a' = a.setWidth 6 then some d else s.ram.read b' a'

/-- A byte frame (20_memory.md R48) writes `data[7:4]` at its chip address and `data[3:0]` at the next (that order is
general knowledge, G3, log 13), and every other location reads as before; at chip address 63 the rest of that chip becomes
unspecified (U5, log 16) and the other chip reads as before. Premise `LC = ENABLED`: R156. The form WR_BYTE, a frame as an
instruction of its own, is the model's choice (log 9). -/
def Obligations.ByteWriteStoresTwoLocations : Prop :=
  ∀ (s : State) (a : Byte) (v : Byte), Ready s → a.toNat ≤ 0x7F → wired s.cfg (routedBoard a.toNat) = true →
    s.lc (routedBoard a.toNat) = .enabled →
    ∀ i, i = .encByte a v ∨ i = .wrcol a.toNat v ∨ i = .wrByte (routedBoard a.toNat) (a.setWidth 6) v →
    ∃ t, exec i s = .next t ∧ ∀ b' (a' : BitVec 6), t.ram.read b' a' =
      if b' = routedBoard a.toNat then
        if a' = a.setWidth 6 then some (v.extractLsb' 4 4)
        else if a.setWidth 6 = (63 : BitVec 6) then none
        else if a' = a.setWidth 6 + 1 then some (v.extractLsb' 0 4)
        else s.ram.read b' a'
      else s.ram.read b' a'

/-- After CLEAR, after SELFTEST and after the clearing of TEARDOWN every location of a wired, enabled board is 0, and an
unwired board's RAM is as before (42_displaycontroller.md R103, R104, derived there; premise R156). -/
def Obligations.ClearingZeroesTheRam : Prop :=
  ∀ s : State, Ready s → ∀ i, i = .clear ∨ i = .selftest ∨ i = .teardown →
    ∃ t, exec i s = .next t ∧ ∀ b a,
      (wired s.cfg b = true → s.lc b = .enabled → t.ram.read b a = some 0) ∧
      (wired s.cfg b = false → t.ram.read b a = s.ram.read b a)

/-- The RAM of a chip changes only by a frame on its own chip-select line (20_memory.md R46, R53 (c)): where no event of a
request lowers that line, every location reads as before. -/
def Obligations.RamChangesOnlyByItsOwnFrames : Prop :=
  ∀ (i : Instr) (s t : State) (es : List Event) (b : Board), exec i s = .next t → t.trace = s.trace ++ es →
    wired s.cfg b = false ∨ .pinWrite (resolve s.cfg b) .low ∉ es →
    ∀ a, t.ram.read b a = s.ram.read b a

/-- A write repeated leaves the RAM as the first one did (20_memory.md R51, derived there); at chip address 63 what is
unspecified stays so (log 16). -/
def Obligations.WritesAreIdempotentOnRam : Prop :=
  ∀ (s t : State) (a : Byte) (d : Nibble) (v : Byte), Memory.wf s.ram = true →
    (exec (.encNib a d) s = .next t → ∃ u, exec (.encNib a d) t = .next u ∧ u.ram = t.ram) ∧
    (exec (.encByte a v) s = .next t → ∃ u, exec (.encByte a v) t = .next u ∧ u.ram = t.ram)

/-- No read path (20_memory.md R44): whatever the chips hold, a request has the same outcome in everything but the RAM. -/
def Obligations.RamIsNeverRead : Prop :=
  ∀ (i : Instr) (s : State) (m : Memory),
    (∀ t, exec i s = .next t → ∃ u, exec i { s with ram := m } = .next u ∧ { u with ram := t.ram } = t) ∧
    (∀ r, exec i s = .refused r → exec i { s with ram := m } = .refused r)

/-! ## Whole-machine rules -/

/-- What a request puts out, and whether it is refused, depends on the inputs and on PHASE alone: no operation reads LC
(10_state.md R24), LEVEL (R25), the trace (R26) or the chips' RAM (20_memory.md R44). -/
def Obligations.EventsDependOnInputsAndPhaseOnly : Prop :=
  ∀ (i : Instr) (s s' : State), s'.cfg = s.cfg → s'.params = s.params → s'.phase = s.phase →
    (∀ t, exec i s = .next t → ∃ t' es, exec i s' = .next t' ∧ t.trace = s.trace ++ es ∧ t'.trace = s'.trace ++ es ∧
      t'.phase = t.phase) ∧
    (∀ r, exec i s = .refused r → exec i s' = .refused r)

/-- No operation writes the inputs (10_state.md R22, R32) or takes back an event, LEVEL follows the events (R25, R26), and
no request stops with a fault (60_exceptions.md R136). -/
def Obligations.InputsStayAndTheTraceGrows : Prop :=
  ∀ (i : Instr) (s : State), (∀ f, exec i s ≠ .fault f) ∧
    ∀ t, exec i s = .next t → t.cfg = s.cfg ∧ t.params = s.params ∧ t.requests = s.requests ∧
      ∃ es, t.trace = s.trace ++ es ∧ t.levels = es.foldl Levels.after s.levels

/-- PHASE moves only from CLOSED to OPEN, by OPEN, and from OPEN to RELEASED, by TEARDOWN (10_state.md R23, decision D7);
LC is written only by INIT (R24, decision D15). -/
def Obligations.PhaseAndLifecycleMoveOnlySo : Prop :=
  ∀ (i : Instr) (s t : State), exec i s = .next t →
    (t.phase ≠ s.phase → (i = .openLines ∧ s.phase = .closed ∧ t.phase = .opened) ∨
      (i = .teardown ∧ s.phase = .opened ∧ t.phase = .released)) ∧
    (∀ b, t.lc b ≠ s.lc b → i = .initBoard (BitVec.ofNat 2 (boardIndex b)) ∧ t.lc b = .enabled)

/-- A request that reports an error has changed nothing but the trace, and that by one event; no request emits two
(60_exceptions.md R134, R135, derived there). -/
def Obligations.AReportStandsAlone : Prop :=
  ∀ (i : Instr) (s t : State) (es : List Event), exec i s = .next t → t.trace = s.trace ++ es → reports es ≠ [] →
    ∃ c, t = reported c s

/-- Only the operations of 60_exceptions.md R131 report, each its own codes; the order of TRANSMIT's checks is the spec's
decision D10 (log 19), the invalid selectors are D8. -/
def Obligations.WhoMayReportWhat : Prop :=
  ∀ (i : Instr) (s : State) (c : ErrorCode), exec i s = .next (reported c s) →
    (∃ w n, i = .transmit w n 0 ∧ c = .csUnconfigured) ∨
    (∃ w n p, i = .transmit w n p ∧ p ≠ 0 ∧ n ≠ 12 ∧ n ≠ 14 ∧ n ≠ 18 ∧ c = .badLength) ∨
    (∃ sel o, i = .encCmd sel o ∧ (sel = 2 ∨ sel = 3) ∧ c = .badBoard) ∨
    (∃ sel, i = .initBoard sel ∧ (sel = 2 ∨ sel = 3) ∧ c = .badBoard) ∨
    (∃ x k, i = .rstring x k ∧ (∃ ch ∈ x, ch < 32 ∨ s.params.font.length ≤ ch - 32) ∧ c = .range) ∨
    (∃ x v n, i = .rscroll x v n ∧ (∃ ch ∈ x, ch < 32 ∨ s.params.font.length ≤ ch - 32) ∧ c = .range)

/-- Every pin event names WR, DATA or the chip-select of a wired board, and never pin 0 (10_state.md R25;
95_test_vectors.md S8). -/
def Obligations.EventsNameConfiguredPinsOnly : Prop :=
  ∀ (i : Instr) (s t : State) (es : List Event), exec i s = .next t → t.trace = s.trace ++ es →
    ∀ e ∈ es, ∀ p, eventPin e = some p → p ≠ 0 ∧
      (p = s.cfg.wr ∨ p = s.cfg.data ∨ ∃ b, wired s.cfg b = true ∧ p = resolve s.cfg b)

/-- Every request but TRANSMIT puts frames of the three formats only on the wire (30_encoding.md R60), and the operations
that generate addresses write bytes to even ones (70_reset_and_hazards.md R158, derived there). -/
def Obligations.OnlyTheThreeFormatsAreSent : Prop :=
  ∀ (i : Instr) (s t : State) (b : Board), Inv s → exec i s = .next t → wired s.cfg b = true →
    ∃ fs, frames t.cfg t.trace (resolve s.cfg b) = frames s.cfg s.trace (resolve s.cfg b) ++ fs ∧
      ((∀ w n c, i ≠ .transmit w n c) → ∀ f ∈ fs,
        (∃ o, f = commandBits o) ∨ (∃ a d, f = nibbleBits a d) ∨ (∃ a d, f = byteBits a d)) ∧
      ((i = .clear ∨ i = .selftest ∨ i = .teardown ∨ (∃ x c, i = .rstring x c) ∨ (∃ x v n, i = .rscroll x v n)) →
        ∀ f ∈ fs, ∃ (a : BitVec 6) (d : Byte), a.getLsbD 0 = false ∧ f = byteBits a d)

/-- The number of events of each request (70_reset_and_hazards.md R165, derived there), with `w` the number of wired
boards, in `PHASE = OPEN`; and for OPEN in `PHASE = CLOSED`. -/
def Obligations.EventCounts : Prop :=
  ∀ (s t : State),
    let w := (wired s.cfg .board0).toNat + (wired s.cfg .board1).toNat
    let added := fun n => t.trace.length = s.trace.length + n
    (exec .openLines s = .next t → added (2 + w)) ∧
    (s.phase = .opened →
      (∀ x n b, wired s.cfg b = true → n = 12 ∨ n = 14 ∨ n = 18 →
        exec (.transmit x n (resolve s.cfg b)) s = .next t → added (3 * n.toNat + 3)) ∧
      (∀ b o, exec (.encCmd (BitVec.ofNat 2 (boardIndex b)) o) s = .next t →
        added (if wired s.cfg b then 39 else 0)) ∧
      (∀ (a : Byte) d, exec (.encNib a d) s = .next t → added (if wired s.cfg (routedBoard a.toNat) then 45 else 0)) ∧
      (∀ (a : Byte) v, exec (.encByte a v) s = .next t →
        added (if a.toNat ≤ 0x7F ∧ wired s.cfg (routedBoard a.toNat) = true then 57 else 0)) ∧
      (∀ b, exec (.initBoard (BitVec.ofNat 2 (boardIndex b))) s = .next t →
        added (if wired s.cfg b then 196 else 0)) ∧
      (exec .clear s = .next t → added (1824 * w)) ∧
      (exec .selftest s = .next t → added (3648 * w + 1)) ∧
      (∀ (a : Int) v, exec (.wrcol a v) s = .next t →
        added (if 0 ≤ a ∧ a ≤ 0x7F ∧ wired s.cfg (routedBoard a.toNat) = true then 57 else 0)) ∧
      (∀ (a : Int) d, exec (.wrhalf a d) s = .next t →
        added (if 0 ≤ a ∧ a ≤ 255 ∧ wired s.cfg (routedBoard a.toNat) = true then 45 else 0)) ∧
      (exec .teardown s = .next t → added (1824 * w + 1))) ∧
    (s.phase ≠ .opened → exec .teardown s = .next t → added 0)
end

