-- ==== Sys2Proof/Laws/Operands.lean ====
section
/-! SUPPORT. Laws of the operand forms. -/

namespace Sys2Proof.Machine

/-- The scroll delay is `1 / speed` (43_glyphrenderer.md R123). -/
theorem scrollPeriod_eq {speed : Rat} (h : 0 < speed) : scrollPeriod speed = 1 / speed := by
  have hn : 0 < speed.num := Rat.num_pos.2 h
  have hc : ((speed.num.toNat : Int) : Rat) = (speed.num : Rat) := by
    rw [Int.toNat_of_nonneg hn.le]
  unfold scrollPeriod
  rw [Rat.mkRat_eq_div, ← Int.cast_natCast speed.num.toNat, hc, one_div]
  conv_rhs => rw [← Rat.num_div_den speed, inv_div]
  simp

end Sys2Proof.Machine
end

