-- ==== Sys2Proof/Laws/State.lean ====
section
/-! SUPPORT. One lemma per field per update of State. -/

namespace Sys2Proof.Machine

variable (es : List Event) (s : State)

@[simp] theorem emit_cfg : (emit es s).cfg = s.cfg := rfl
@[simp] theorem emit_params : (emit es s).params = s.params := rfl
@[simp] theorem emit_phase : (emit es s).phase = s.phase := rfl
@[simp] theorem emit_lc0 : (emit es s).lc0 = s.lc0 := rfl
@[simp] theorem emit_lc1 : (emit es s).lc1 = s.lc1 := rfl
@[simp] theorem emit_lc (b : Board) : (emit es s).lc b = s.lc b := by cases b <;> rfl
@[simp] theorem emit_levels : (emit es s).levels = es.foldl Levels.after s.levels := rfl
@[simp] theorem emit_trace : (emit es s).trace = s.trace ++ es := rfl
@[simp] theorem emit_ram : (emit es s).ram = s.ram := rfl
@[simp] theorem emit_requests : (emit es s).requests = s.requests := rfl

@[simp] theorem setLc_cfg (b : Board) (x : Lifecycle) : (setLc b x s).cfg = s.cfg := by cases b <;> rfl
@[simp] theorem setLc_params (b : Board) (x : Lifecycle) : (setLc b x s).params = s.params := by cases b <;> rfl
@[simp] theorem setLc_phase (b : Board) (x : Lifecycle) : (setLc b x s).phase = s.phase := by cases b <;> rfl
@[simp] theorem setLc_levels (b : Board) (x : Lifecycle) : (setLc b x s).levels = s.levels := by cases b <;> rfl
@[simp] theorem setLc_trace (b : Board) (x : Lifecycle) : (setLc b x s).trace = s.trace := by cases b <;> rfl
@[simp] theorem setLc_ram (b : Board) (x : Lifecycle) : (setLc b x s).ram = s.ram := by cases b <;> rfl
@[simp] theorem setLc_requests (b : Board) (x : Lifecycle) : (setLc b x s).requests = s.requests := by cases b <;> rfl
@[simp] theorem setLc_lc (b b' : Board) (x : Lifecycle) : (setLc b x s).lc b' = if b' = b then x else s.lc b' := by
  cases b <;> cases b' <;> rfl

@[simp] theorem raise_eq (c : ErrorCode) : raise c s = emit [.report c] s := rfl

section Transmit
variable (b : Board) (w : WireWord) (n : Nat)

@[simp] theorem transmit_cfg : (transmit b w n s).cfg = s.cfg := rfl
@[simp] theorem transmit_params : (transmit b w n s).params = s.params := rfl
@[simp] theorem transmit_phase : (transmit b w n s).phase = s.phase := rfl
@[simp] theorem transmit_lc0 : (transmit b w n s).lc0 = s.lc0 := rfl
@[simp] theorem transmit_lc1 : (transmit b w n s).lc1 = s.lc1 := rfl
@[simp] theorem transmit_lc (b' : Board) : (transmit b w n s).lc b' = s.lc b' := by cases b' <;> rfl
@[simp] theorem transmit_requests : (transmit b w n s).requests = s.requests := rfl
@[simp] theorem transmit_trace :
    (transmit b w n s).trace = s.trace ++ frameEvents s.cfg (resolve s.cfg b) (sentBits w n) := rfl
@[simp] theorem transmit_levels :
    (transmit b w n s).levels = (frameEvents s.cfg (resolve s.cfg b) (sentBits w n)).foldl Levels.after s.levels := rfl
@[simp] theorem transmit_ram : (transmit b w n s).ram = s.ram.receive b (sentBits w n) := rfl

end Transmit

end Sys2Proof.Machine
end

