-- ==== Sys2Proof/Laws/Table.lean ====
section
/-! SUPPORT. The laws of the sparse table, of LEVEL and of the ghost RAM: read after write, canonical form, and one spec
lemma per memory operation. -/

namespace Sys2Proof.Machine

variable {α : Type}

@[simp] theorem Table.get_nil (k : Nat) : Table.get ([] : List (Nat × α)) k = none := rfl

/-- Reading after writing, on any table. -/
theorem Table.get_set (t : List (Nat × α)) (q k : Nat) (x : α) :
    Table.get (Table.set t q x) k = if k = q then some x else Table.get t k := by
  induction t with
  | nil => simp [Table.set, Table.get]
  | cons e rest ih =>
    obtain ⟨k', v⟩ := e
    simp only [Table.set]
    split
    · simp [Table.get]
    · split
      · rename_i h; subst h; simp only [Table.get]; split <;> simp_all
      · simp only [Table.get, ih]
        split
        · rename_i h1 h2 h3; subst h3; simp [Ne.symm h2]
        · rfl

theorem Table.get_set_self (t : List (Nat × α)) (q : Nat) (x : α) : Table.get (Table.set t q x) q = some x := by
  simp [Table.get_set]

theorem Table.get_set_other {t : List (Nat × α)} {q k : Nat} {x : α} (h : k ≠ q) :
    Table.get (Table.set t q x) k = Table.get t k := by
  simp [Table.get_set, h]

theorem Table.get_restrict (t : List (Nat × α)) (keep : Nat → Bool) (k : Nat) :
    Table.get (Table.restrict keep t) k = if keep k then Table.get t k else none := by
  induction t with
  | nil => simp [Table.restrict]
  | cons e rest ih =>
    obtain ⟨k', v⟩ := e
    simp only [Table.restrict, List.filter_cons] at ih ⊢
    by_cases hk : k = k'
    · subst hk
      cases h : keep k <;> simp_all [Table.get]
    · cases h : keep k' <;> simp_all [Table.get]

theorem Table.mem_keys_set (t : List (Nat × α)) (q : Nat) (x : α) (k : Nat) :
    k ∈ (Table.set t q x).map Prod.fst ↔ k = q ∨ k ∈ t.map Prod.fst := by
  induction t with
  | nil => simp [Table.set]
  | cons e rest ih =>
    obtain ⟨k', v⟩ := e
    simp only [Table.set]
    split
    · simp
    · split
      · rename_i h; subst h; simp
      · simp only [List.map_cons, List.mem_cons, ih]; tauto

/-- Writing keeps the keys rising. -/
theorem Table.wf_set {t : List (Nat × α)} (h : Table.wf t = true) (q : Nat) (x : α) :
    Table.wf (Table.set t q x) = true := by
  simp only [Table.wf, decide_eq_true_eq] at *
  induction t with
  | nil => simp [Table.set]
  | cons e rest ih =>
    obtain ⟨k', v⟩ := e
    simp only [List.map_cons, List.pairwise_cons] at h
    obtain ⟨h1, h2⟩ := h
    simp only [Table.set]
    split
    · rename_i hq
      simp only [List.map_cons, List.pairwise_cons]
      refine ⟨fun a ha => ?_, h1, h2⟩
      rcases List.mem_cons.1 ha with rfl | ha
      · exact hq
      · exact Nat.lt_trans hq (h1 a ha)
    · split
      · rename_i _ hq; subst hq
        exact List.pairwise_cons.2 ⟨h1, h2⟩
      · rename_i hlt hne
        simp only [List.map_cons, List.pairwise_cons]
        refine ⟨fun a ha => ?_, ih h2⟩
        rcases (Table.mem_keys_set rest q x a).1 ha with rfl | ha
        · omega
        · exact h1 a ha

/-- Dropping entries keeps the keys rising. -/
theorem Table.wf_restrict {t : List (Nat × α)} (h : Table.wf t = true) (keep : Nat → Bool) :
    Table.wf (Table.restrict keep t) = true := by
  simp only [Table.wf, decide_eq_true_eq] at *
  exact h.sublist (List.Sublist.map Prod.fst List.filter_sublist)

/-! ## LEVEL -/

/-- LEVEL stays canonical through any events. -/
theorem Levels.wf_foldl (es : List Event) {lv : Levels} (h : Table.wf lv = true) :
    Table.wf (es.foldl Levels.after lv) = true := by
  induction es generalizing lv with
  | nil => exact h
  | cons e rest ih =>
    refine ih ?_
    cases e with
    | configure p l => exact Table.wf_set h p l
    | pinWrite p l => exact Table.wf_set h p l
    | releaseAll => rfl
    | delay t => exact h
    | report c => exact h

/-- `LEVEL[q]` after `setLevel(p, l)`. -/
theorem Levels.line_set (lv : Levels) (p q : Pin) (l : Level) :
    Levels.line (Table.set lv p l) q = if q = p then .driven l else Levels.line lv q := by
  unfold Levels.line
  rw [Table.get_set]
  by_cases h : q = p <;> simp [h]

/-! ## The ghost RAM -/

theorem location_lt (b : Board) (a : BitVec 6) : location b a < 128 := by
  have := a.isLt
  cases b <;> simp [location, boardIndex] <;> omega

theorem location_div (b : Board) (a : BitVec 6) : location b a / 64 = boardIndex b := by
  have := a.isLt
  unfold location
  omega

theorem location_inj {b b' : Board} {a a' : BitVec 6} : location b a = location b' a' ↔ b = b' ∧ a = a' := by
  have h1 := a.isLt
  have h2 := a'.isLt
  constructor
  · intro h
    cases b <;> cases b' <;> simp only [location, boardIndex] at h <;>
      first
        | exact ⟨rfl, BitVec.eq_of_toNat_eq (by omega)⟩
        | omega
  · rintro ⟨rfl, rfl⟩; rfl

/-- `MemWrite`: the location written reads the value, every other location of both chips as before. -/
theorem Memory.read_write (m : Memory) (b b' : Board) (a a' : BitVec 6) (v : Nibble) :
    Memory.read (Memory.write m b a v) b' a' = if b' = b ∧ a' = a then some v else Memory.read m b' a' := by
  simp only [Memory.read, Memory.write, Table.get_set, location_inj]

/-- After forgetting, nothing of that board is known and the other board is as before. -/
theorem Memory.read_forget (m : Memory) (b b' : Board) (a : BitVec 6) :
    Memory.read (Memory.forget m b) b' a = if b' = b then none else Memory.read m b' a := by
  simp only [Memory.read, Memory.forget, Table.get_restrict, location_div]
  cases b <;> cases b' <;> simp [boardIndex]

theorem Memory.all_set {m : Memory} (h : ∀ e ∈ m, e.1 < 128) {k : Nat} (hk : k < 128) (v : Nibble) :
    ∀ e ∈ Table.set m k v, e.1 < 128 := by
  intro e he
  have := (Table.mem_keys_set m k v e.1).1 (List.mem_map_of_mem he)
  rcases this with h1 | h1
  · omega
  · obtain ⟨e', he', h2⟩ := List.mem_map.1 h1
    exact h2 ▸ h e' he'

/-- Writing keeps the canonical form. -/
theorem Memory.wf_write {m : Memory} (h : Memory.wf m = true) (b : Board) (a : BitVec 6) (v : Nibble) :
    Memory.wf (Memory.write m b a v) = true := by
  simp only [Memory.wf, Bool.and_eq_true, List.all_eq_true, decide_eq_true_eq] at *
  exact ⟨Table.wf_set h.1 _ _, Memory.all_set h.2 (location_lt b a) v⟩

/-- Forgetting keeps the canonical form. -/
theorem Memory.wf_forget {m : Memory} (h : Memory.wf m = true) (b : Board) : Memory.wf (Memory.forget m b) = true := by
  simp only [Memory.wf, Bool.and_eq_true, List.all_eq_true, decide_eq_true_eq] at *
  exact ⟨Table.wf_restrict h.1 _, fun e he => h.2 e (List.mem_of_mem_filter he)⟩

/-- A byte frame keeps the canonical form. -/
theorem Memory.wf_writeByte {m : Memory} (h : Memory.wf m = true) (b : Board) (a : BitVec 6) (d : Byte) :
    Memory.wf (Memory.writeByte m b a d) = true := by
  unfold Memory.writeByte
  split
  · exact Memory.wf_write (Memory.wf_write h _ _ _) _ _ _
  · exact Memory.wf_write (Memory.wf_forget h _) _ _ _

/-- Any frame keeps the canonical form. -/
theorem Memory.wf_receive {m : Memory} (h : Memory.wf m = true) (b : Board) (bits : List Bool) :
    Memory.wf (Memory.receive m b bits) = true := by
  unfold Memory.receive
  split
  · exact Memory.wf_write h _ _ _
  · exact Memory.wf_writeByte h _ _ _
  · exact Memory.wf_forget h _
  · exact Memory.wf_forget h _

/-- A frame to one board leaves the other board's RAM as it was (20_memory.md R53 (c)). -/
theorem Memory.read_receive_other {b b' : Board} (h : b' ≠ b) (m : Memory) (bits : List Bool) (a : BitVec 6) :
    Memory.read (Memory.receive m b bits) b' a = Memory.read m b' a := by
  unfold Memory.receive
  split
  · simp [Memory.read_write, h]
  · unfold Memory.writeByte
    split <;> simp [Memory.read_write, Memory.read_forget, h]
  · simp [Memory.read_forget, h]
  · simp [Memory.read_forget, h]

end Sys2Proof.Machine
end

