-- ==== Sys2Proof/Laws/Ops.lean ====
section
/-! SUPPORT. What the block's operations can do, said once: each sends a list of frames and delays, and changes nothing
else. One spec lemma per shared operation, and the inversion of `exec`. -/

namespace Sys2Proof.Machine

/-- One thing the block puts out in the course of an operation: a frame to a wired board, or a delay. -/
inductive Emission where
  | frame (b : Board) (bits : List Bool)
  | wait (t : Duration)
deriving DecidableEq, Repr

/-- Its events. -/
def Emission.events (c : Cfg) : Emission → List Event
  | .frame b bits => frameEvents c (resolve c b) bits
  | .wait t => [.delay t]

/-- Its effect on the ghost RAM. -/
def Emission.store (m : Memory) : Emission → Memory
  | .frame b bits => m.receive b bits
  | .wait _ => m

/-- Its board, when it is a frame, is wired. -/
def Emission.toWired (c : Cfg) : Emission → Prop
  | .frame b _ => wired c b = true
  | .wait _ => True

/-- `t` is `s` after the emissions `ms` and nothing else. -/
structure Sends (ms : List Emission) (s t : State) : Prop where
  cfg : t.cfg = s.cfg
  params : t.params = s.params
  phase : t.phase = s.phase
  lc0 : t.lc0 = s.lc0
  lc1 : t.lc1 = s.lc1
  requests : t.requests = s.requests
  trace : t.trace = s.trace ++ ms.flatMap (Emission.events s.cfg)
  levels : t.levels = (ms.flatMap (Emission.events s.cfg)).foldl Levels.after s.levels
  ram : t.ram = ms.foldl Emission.store s.ram
  wired : ∀ m ∈ ms, m.toWired s.cfg

theorem Sends.refl (s : State) : Sends [] s s :=
  ⟨rfl, rfl, rfl, rfl, rfl, rfl, by simp, rfl, rfl, by simp⟩

theorem Sends.trans {ms ns : List Emission} {s t u : State} (h : Sends ms s t) (k : Sends ns t u) :
    Sends (ms ++ ns) s u where
  cfg := k.cfg.trans h.cfg
  params := k.params.trans h.params
  phase := k.phase.trans h.phase
  lc0 := k.lc0.trans h.lc0
  lc1 := k.lc1.trans h.lc1
  requests := k.requests.trans h.requests
  trace := by rw [k.trace, h.trace, h.cfg, List.flatMap_append, List.append_assoc]
  levels := by rw [k.levels, h.levels, h.cfg, List.flatMap_append, List.foldl_append]
  ram := by rw [k.ram, h.ram, List.foldl_append]
  wired := by
    intro m hm
    rcases List.mem_append.1 hm with hm | hm
    · exact h.wired m hm
    · have := k.wired m hm
      rwa [h.cfg] at this

theorem Sends.lc {ms : List Emission} {s t : State} (h : Sends ms s t) (b : Board) : t.lc b = s.lc b := by
  cases b
  · exact h.lc0
  · exact h.lc1

/-- Emissions keep the ghost RAM canonical. -/
theorem Sends.ram_wf {ms : List Emission} {s t : State} (h : Sends ms s t) (hw : Memory.wf s.ram = true) :
    Memory.wf t.ram = true := by
  rw [h.ram]
  clear h
  generalize s.ram = m at hw
  induction ms generalizing m with
  | nil => exact hw
  | cons e rest ih =>
    refine ih _ ?_
    cases e with
    | frame b bits => exact Memory.wf_receive hw b bits
    | wait t => exact hw

/-! ## The shared operations -/

theorem emit_delay_sends (t : Duration) (s : State) : Sends [.wait t] s (emit [.delay t] s) :=
  ⟨rfl, rfl, rfl, rfl, rfl, rfl, rfl, rfl, rfl, by simp [Emission.toWired]⟩

/-- What `send` puts out. -/
def sendItems (c : Cfg) (b : Board) (word : WireWord) (len : Nat) : List Emission :=
  if wired c b then [.frame b (sentBits word len)] else []

theorem send_sends (b : Board) (word : WireWord) (len : Nat) (s : State) :
    Sends (sendItems s.cfg b word len) s (send b word len s) := by
  unfold sendItems send
  split
  · rename_i h
    exact ⟨rfl, rfl, rfl, rfl, rfl, rfl, by simp [Emission.events], by simp [Emission.events], rfl,
      by simpa [Emission.toWired] using h⟩
  · exact Sends.refl s

def commandItems (c : Cfg) (b : Board) (opcode : Byte) : List Emission := sendItems c b (commandWord opcode) 12

theorem sendCommand_sends (b : Board) (opcode : Byte) (s : State) :
    Sends (commandItems s.cfg b opcode) s (sendCommand b opcode s) := send_sends b _ 12 s

/-- Two routing tests in sequence: the common shape of ENC_NIB and ENC_BYTE. -/
theorem route_sends (r0 r1 : Bool) (word : WireWord) (len : Nat) (s : State) :
    Sends ((if r0 then sendItems s.cfg .board0 word len else []) ++
        (if r1 then sendItems s.cfg .board1 word len else [])) s
      (let s := if r0 then send .board0 word len s else s
       if r1 then send .board1 word len s else s) := by
  have h0 : Sends (if r0 then sendItems s.cfg .board0 word len else []) s (if r0 then send .board0 word len s else s) := by
    split
    · exact send_sends _ _ _ _
    · exact Sends.refl s
  refine h0.trans ?_
  rw [← h0.cfg]
  cases r1
  · exact Sends.refl _
  · exact send_sends _ _ _ _

def nibbleItems (c : Cfg) (address : Byte) (nibble : Nibble) : List Emission :=
  (if routesBoard0 address then sendItems c .board0 (nibbleWord address nibble) 14 else []) ++
    (if nibbleRoutesBoard1 address then sendItems c .board1 (nibbleWord address nibble) 14 else [])

theorem encodeNibble_sends (address : Byte) (nibble : Nibble) (s : State) :
    Sends (nibbleItems s.cfg address nibble) s (encodeNibble address nibble s) := route_sends _ _ _ 14 s

def byteItems (c : Cfg) (address : Byte) (data : Byte) : List Emission :=
  (if routesBoard0 address then sendItems c .board0 (byteWord address data) 18 else []) ++
    (if byteRoutesBoard1 address then sendItems c .board1 (byteWord address data) 18 else [])

theorem encodeByte_sends (address : Byte) (data : Byte) (s : State) :
    Sends (byteItems s.cfg address data) s (encodeByte address data s) := route_sends _ _ _ 18 s

/-- A fold of operations, each of which sends what the inputs alone determine, sends all of it in order. -/
theorem Sends.foldl {β : Type} {op : State → β → State} {items : Cfg → Params → β → List Emission}
    (h : ∀ s a, Sends (items s.cfg s.params a) s (op s a)) (l : List β) (s : State) :
    Sends (l.flatMap (items s.cfg s.params)) s (l.foldl op s) := by
  induction l generalizing s with
  | nil => exact Sends.refl s
  | cons a rest ih =>
    have h1 := h s a
    have h2 := ih (op s a)
    rw [h1.cfg, h1.params] at h2
    exact h1.trans h2

def fillItems (c : Cfg) (v : Byte) : List Emission := evenAddresses.flatMap (fun a => byteItems c a v)

theorem fill_sends (v : Byte) (s : State) : Sends (fillItems s.cfg v) s (fill v s) :=
  Sends.foldl (items := fun c _ a => byteItems c a v) (fun s a => encodeByte_sends a v s) evenAddresses s

def columnItems (c : Cfg) (a : Int) (v : Byte) : List Emission :=
  if addressInRange a then byteItems c (BitVec.ofInt 8 a) v else []

theorem writeColumn_sends (a : Int) (v : Byte) (s : State) : Sends (columnItems s.cfg a v) s (writeColumn a v s) := by
  unfold columnItems writeColumn
  split
  · exact encodeByte_sends _ _ _
  · exact Sends.refl s

def halfColumnItems (c : Cfg) (a : Int) (v : Nibble) : List Emission :=
  if addressInRange a then nibbleItems c (BitVec.ofInt 8 a) v else []

theorem writeHalfColumn_sends (a : Int) (v : Nibble) (s : State) :
    Sends (halfColumnItems s.cfg a v) s (writeHalfColumn a v s) := by
  unfold halfColumnItems writeHalfColumn
  split
  · exact encodeNibble_sends _ _ _
  · exact Sends.refl s

def columnsItems (c : Cfg) : List Byte → Int → List Emission
  | [], _ => []
  | v :: vs, a => columnItems c a v ++ columnsItems c vs (a + 2)

theorem writeColumns_sends (vs : List Byte) (a : Int) (s : State) :
    Sends (columnsItems s.cfg vs a) s (writeColumns vs a s) := by
  induction vs generalizing a s with
  | nil => exact Sends.refl s
  | cons v vs ih =>
    have h1 := writeColumn_sends a v s
    have h2 := ih (a + 2) (writeColumn a v s)
    rw [h1.cfg] at h2
    exact h1.trans h2

def glyphItems (c : Cfg) (g : Glyph) (a : Int) : List Emission :=
  columnsItems c ((glyphBytes g).map reverse8 ++ [0x00]) a

theorem renderGlyph_sends (g : Glyph) (a : Int) (s : State) : Sends (glyphItems s.cfg g a) s (renderGlyph g a s) :=
  writeColumns_sends _ a s

def textItems (c : Cfg) (p : Params) : List Nat → Int → List Emission
  | [], _ => []
  | ch :: cs, cur =>
    (match glyphOf p.font ch with
      | some g => glyphItems c g cur
      | none => []) ++ textItems c p cs (cur + Config.charPitch)

theorem renderText_sends (text : List Nat) (cur : Int) (s : State) :
    Sends (textItems s.cfg s.params text cur) s (renderText text cur s) := by
  induction text generalizing cur s with
  | nil => exact Sends.refl s
  | cons ch cs ih =>
    simp only [textItems, renderText]
    cases hg : glyphOf s.params.font ch with
    | none => exact (Sends.refl s).trans (ih _ s)
    | some g =>
      have h1 := renderGlyph_sends g cur s
      have h2 := ih (cur + Config.charPitch) (renderGlyph g cur s)
      rw [h1.cfg, h1.params] at h2
      exact h1.trans h2

def scrollItems (text : List Nat) (speed : Rat) (c : Cfg) (p : Params) (offset : Int) : List Emission :=
  textItems c p text (offset * 2) ++ [.wait (scrollPeriod speed)]

theorem scrollFrame_sends (text : List Nat) (speed : Rat) (s : State) (offset : Int) :
    Sends (scrollItems text speed s.cfg s.params offset) s (scrollFrame text speed s offset) :=
  (renderText_sends text (offset * 2) s).trans (emit_delay_sends _ _)

def cyclesItems (text : List Nat) (speed : Rat) (c : Cfg) (p : Params) : Nat → List Emission
  | 0 => []
  | n + 1 => (scrollOffsets text).flatMap (scrollItems text speed c p) ++ cyclesItems text speed c p n

theorem scrollCycles_sends (text : List Nat) (speed : Rat) (n : Nat) (s : State) :
    Sends (cyclesItems text speed s.cfg s.params n) s (scrollCycles text speed n s) := by
  induction n generalizing s with
  | zero => exact Sends.refl s
  | succ n ih =>
    have h1 := Sends.foldl (op := scrollFrame text speed) (items := scrollItems text speed)
      (fun s a => scrollFrame_sends text speed s a) (scrollOffsets text) s
    have h2 := ih ((scrollOffsets text).foldl (scrollFrame text speed) s)
    rw [h1.cfg, h1.params] at h2
    exact h1.trans h2

/-! ## INIT -/

theorem send_setLc (b b' : Board) (w : WireWord) (n : Nat) (x : Lifecycle) (s : State) :
    send b w n (setLc b' x s) = setLc b' x (send b w n s) := by
  unfold send
  simp only [setLc_cfg]
  split
  · cases b' <;> rfl
  · rfl

theorem setLc_setLc (b : Board) (x y : Lifecycle) (s : State) : setLc b x (setLc b y s) = setLc b x s := by
  cases b <;> rfl

theorem emit_setLc (es : List Event) (b : Board) (x : Lifecycle) (s : State) :
    emit es (setLc b x s) = setLc b x (emit es s) := by
  cases b <;> rfl

def initItems (c : Cfg) (p : Params) (b : Board) : List Emission :=
  commandItems c b p.opcSystemDisable ++ commandItems c b p.opcSetCommon8Nmos ++ commandItems c b p.opcSystemEnable ++
    commandItems c b p.opcLedOn ++ commandItems c b p.opcPwm16Grayscale ++ [.wait p.tSettle]

/-- INIT sends its five commands, waits, and leaves `LC[board] = ENABLED`. -/
theorem initialise_sends (b : Board) (s : State) :
    ∃ u, Sends (initItems s.cfg s.params b) s u ∧ initialise b s = setLc b .enabled u := by
  have step : ∀ {ms : List Emission} {u : State} (o : Byte), Sends ms s u →
      Sends (ms ++ commandItems s.cfg b o) s (sendCommand b o u) := by
    intro ms u o h
    have := sendCommand_sends b o u
    rw [h.cfg] at this
    exact h.trans this
  have h1 := sendCommand_sends b s.params.opcSystemDisable s
  have h2 := step s.params.opcSetCommon8Nmos h1
  have h3 := step s.params.opcSystemEnable h2
  have h4 := step s.params.opcLedOn h3
  have h5 := step s.params.opcPwm16Grayscale h4
  have h6 := h5.trans (emit_delay_sends s.params.tSettle _)
  refine ⟨_, h6, ?_⟩
  unfold initialise
  simp only [sendCommand, send_setLc, setLc_params, setLc_setLc, emit_setLc]
  have hp : ∀ (o : Byte) (u : State), (send b (commandWord o) 12 u).params = u.params :=
    fun o u => (send_sends b (commandWord o) 12 u).params
  simp only [hp]

/-! ## Serving a request, and what `exec` can do -/

theorem serve_next {takes : Bool} {s t : State} {k : Host.Outcome State Fault Refusal}
    (h : serve takes s k = .next t) : configWf s.params s.cfg = true ∧ takes = true ∧ k = .next t := by
  unfold serve at h
  split at h
  · rename_i h1
    split at h
    · rename_i h2
      exact ⟨h1, h2, h⟩
    · simp at h
  · simp at h

theorem serveOpened_next {s t : State} {k : Host.Outcome State Fault Refusal} (h : serveOpened s k = .next t) :
    configWf s.params s.cfg = true ∧ s.phase = .opened ∧ k = .next t := by
  obtain ⟨h1, h2, h3⟩ := serve_next h
  exact ⟨h1, by simpa using h2, h3⟩

theorem serveOpened_ready {s : State} (h1 : configWf s.params s.cfg = true) (h2 : s.phase = .opened)
    (k : Host.Outcome State Fault Refusal) : serveOpened s k = k := by
  simp [serveOpened, serve, h1, h2]

/-- Everything a request that is not refused can do. -/
inductive Effect (s : State) : State → Prop where
  /-- TEARDOWN outside `PHASE = OPEN`. -/
  | idle (h : s.phase ≠ .opened) : Effect s s
  /-- OPEN. -/
  | opening (h : s.phase = .closed) : Effect s { emit (openEvents s.cfg s.params) s with phase := .opened }
  /-- An error: one report. -/
  | error (h : s.phase = .opened) (c : ErrorCode) : Effect s (emit [.report c] s)
  /-- Frames and delays, possibly none. -/
  | sends (h : s.phase = .opened) (ms : List Emission) {t : State} (hs : Sends ms s t) : Effect s t
  /-- INIT of a wired board. -/
  | init (h : s.phase = .opened) (b : Board) (hb : wired s.cfg b = true) {u : State}
      (hs : Sends (initItems s.cfg s.params b) s u) : Effect s (setLc b .enabled u)
  /-- TEARDOWN in `PHASE = OPEN`. -/
  | closing (h : s.phase = .opened) {u : State} (hs : Sends (fillItems s.cfg 0x00) s u) :
      Effect s { emit [.releaseAll] u with phase := .released }

/-- The inversion of `exec`. -/
theorem exec_effect {i : Instr} {s t : State} (h : exec i s = .next t) : configWf s.params s.cfg = true ∧ Effect s t := by
  have sent : ∀ {k : State} {ms : List Emission}, Sends ms s k → serveOpened s (.next k) = .next t →
      configWf s.params s.cfg = true ∧ Effect s t := by
    intro k ms hs hk
    obtain ⟨h1, h2, h3⟩ := serveOpened_next hk
    cases h3
    exact ⟨h1, .sends h2 _ hs⟩
  cases i with
  | cmd b o => exact sent (sendCommand_sends b o s) h
  | wrNib b a d => exact sent (send_sends b _ 14 s) h
  | wrByte b a d => exact sent (send_sends b _ 18 s) h
  | systemDisable b => exact sent (sendCommand_sends b _ s) h
  | setCommon8Nmos b => exact sent (sendCommand_sends b _ s) h
  | systemEnable b => exact sent (sendCommand_sends b _ s) h
  | ledOn b => exact sent (sendCommand_sends b _ s) h
  | pwm16Grayscale b => exact sent (sendCommand_sends b _ s) h
  | transmit w n c =>
    obtain ⟨h1, h2, h3⟩ := serveOpened_next h
    refine ⟨h1, ?_⟩
    split at h3
    · cases h3; exact .error h2 _
    · rename_i hc
      split at h3
      · simp at h3
      · rename_i b hb
        split at h3
        · cases h3; exact .error h2 _
        · rename_i len _
          cases h3
          have hw : wired s.cfg b = true := by
            unfold boardOfPin at hb
            split at hb
            · cases hb; simp only [wired, resolve]; rename_i e; simpa [← e] using hc
            · split at hb
              · cases hb; simp only [wired, resolve]; rename_i e; simpa [← e] using hc
              · simp at hb
          have := send_sends b w len s
          simp only [sendItems, send, hw, if_true] at this
          exact .sends h2 _ this
  | encCmd b o =>
    obtain ⟨h1, h2, h3⟩ := serveOpened_next h
    refine ⟨h1, ?_⟩
    split at h3
    · cases h3; exact .error h2 _
    · cases h3; exact .sends h2 _ (sendCommand_sends _ _ s)
  | encNib a d => exact sent (encodeNibble_sends a d s) h
  | encByte a d => exact sent (encodeByte_sends a d s) h
  | openLines =>
    obtain ⟨h1, h2, h3⟩ := serve_next h
    cases h3
    exact ⟨h1, .opening (by simpa using h2)⟩
  | initBoard b =>
    obtain ⟨h1, h2, h3⟩ := serveOpened_next h
    refine ⟨h1, ?_⟩
    split at h3
    · cases h3; exact .error h2 _
    · rename_i b' _
      cases h3
      split
      · rename_i hb
        obtain ⟨u, hu, he⟩ := initialise_sends b' s
        rw [he]
        exact .init h2 b' hb hu
      · exact .sends h2 _ (Sends.refl s)
  | clear => exact sent (fill_sends _ s) h
  | selftest =>
    exact sent (((fill_sends 0xFF s).trans (emit_delay_sends _ _)).trans (fill_sends 0x00 _)) h
  | wrcol a v => exact sent (writeColumn_sends a v s) h
  | wrhalf a v => exact sent (writeHalfColumn_sends a v s) h
  | teardown =>
    obtain ⟨h1, _, h3⟩ := serve_next h
    refine ⟨h1, ?_⟩
    cases h3
    split
    · rename_i h2
      exact .closing h2 (fill_sends 0x00 s)
    · rename_i h2
      exact .idle h2
  | rstring x c =>
    obtain ⟨h1, h2, h3⟩ := serveOpened_next h
    refine ⟨h1, ?_⟩
    split at h3
    · cases h3; exact .sends h2 _ (renderText_sends _ _ s)
    · cases h3; exact .error h2 _
  | rscroll x v n =>
    obtain ⟨h1, h2, h3⟩ := serveOpened_next h
    refine ⟨h1, ?_⟩
    split at h3
    · simp at h3
    · split at h3
      · cases h3; exact .sends h2 _ (scrollCycles_sends _ _ _ s)
      · cases h3; exact .error h2 _

end Sys2Proof.Machine
end

