-- ==== Sys2Proof/Laws/PerInstr.lean ====
section
/-! SUPPORT. Per instruction: the encoder's word is matched by the instruction's own row of the opcode table
(30_encoding.md R73). -/

namespace Sys2Proof.Laws.RowMatch

/-- The presented form of a well-formed instruction fits its row's length, mask and pattern. -/
def Statement (i : Instr) : Prop :=
  ∀ p : Params, i.wf p = true → (i.row p).fits (encode p i).tableWord.1 (encode p i).tableWord.2 = true

theorem commandFrame_fits : ∀ o : Byte, rowCmd.fits 12 (commandFrame o) = true := by decide

theorem commandFrame_named : ∀ o : Byte,
    Row.fits { len := 12, mask := 0xFFF, pattern := 0x800 ||| o.toNat <<< 1 } 12 (commandFrame o) = true := by decide

theorem nibbleFrame_fits : ∀ (a : BitVec 6) (d : Nibble), rowNib.fits 14 (nibbleFrame a d) = true := by decide

theorem low_bits_masked (x : Nat) (h : x < 2 ^ 14) : x &&& 0x3C000 = 0 := by
  apply Nat.eq_of_testBit_eq
  intro i
  rw [Nat.testBit_and, Nat.zero_testBit]
  by_cases hi : i < 14
  · have : Nat.testBit 0x3C000 i = false := by
      interval_cases i <;> decide
    simp [this]
  · have : x.testBit i = false := Nat.testBit_lt_two_pow (Nat.lt_of_lt_of_le h (Nat.pow_le_pow_right (by decide) (by omega)))
    simp [this]

theorem byteFrame_fits (a : BitVec 6) (d : Byte) : rowByte.fits 18 (byteFrame a d) = true := by
  have ha : a.toNat <<< 8 < 2 ^ 14 := by have := a.isLt; rw [Nat.shiftLeft_eq]; omega
  have hd : d.toNat < 2 ^ 14 := by have := d.isLt; omega
  have hmask : byteFrame a d &&& 0x3C000 = 0x28000 := by
    unfold byteFrame
    rw [Nat.and_or_distrib_right, Nat.and_or_distrib_right, low_bits_masked _ ha, low_bits_masked _ hd]
    decide
  have hlt : byteFrame a d < 2 ^ 18 := by
    unfold byteFrame
    exact Nat.or_lt_two_pow (Nat.or_lt_two_pow (by decide) (by omega)) (by omega)
  simp only [Row.fits, rowByte, hmask, hlt]
  decide

theorem cmd (b : Board) (o : Byte) : Statement (.cmd b o) :=
  fun _ _ => commandFrame_fits o

theorem wrNib (b : Board) (a : BitVec 6) (d : Nibble) : Statement (.wrNib b a d) :=
  fun _ _ => nibbleFrame_fits a d

theorem wrByte (b : Board) (a : BitVec 6) (d : Byte) : Statement (.wrByte b a d) :=
  fun _ _ => byteFrame_fits a d

theorem systemDisable (b : Board) : Statement (.systemDisable b) :=
  fun _ _ => commandFrame_named _

theorem setCommon8Nmos (b : Board) : Statement (.setCommon8Nmos b) :=
  fun _ _ => commandFrame_named _

theorem systemEnable (b : Board) : Statement (.systemEnable b) :=
  fun _ _ => commandFrame_named _

theorem ledOn (b : Board) : Statement (.ledOn b) :=
  fun _ _ => commandFrame_named _

theorem pwm16Grayscale (b : Board) : Statement (.pwm16Grayscale b) :=
  fun _ _ => commandFrame_named _

theorem transmit (w : WireWord) (n : BitVec 5) (c : Pin) : Statement (.transmit w n c) :=
  fun _ _ => by simp [Instr.row, encode, Presented.tableWord, Row.fits]

theorem encCmd (b : BitVec 2) (o : Byte) : Statement (.encCmd b o) :=
  fun _ _ => by simp [Instr.row, encode, Presented.tableWord, Row.fits]

theorem encNib (a : Byte) (d : Nibble) : Statement (.encNib a d) :=
  fun _ _ => by simp [Instr.row, encode, Presented.tableWord, Row.fits]

theorem encByte (a : Byte) (d : Byte) : Statement (.encByte a d) :=
  fun _ _ => by simp [Instr.row, encode, Presented.tableWord, Row.fits]

theorem openLines : Statement .openLines :=
  fun _ _ => by simp [Instr.row, encode, Presented.tableWord, Row.fits]

theorem initBoard (b : BitVec 2) : Statement (.initBoard b) :=
  fun _ _ => by simp [Instr.row, encode, Presented.tableWord, Row.fits]

theorem clear : Statement .clear :=
  fun _ _ => by simp [Instr.row, encode, Presented.tableWord, Row.fits]

theorem selftest : Statement .selftest :=
  fun _ _ => by simp [Instr.row, encode, Presented.tableWord, Row.fits]

theorem wrcol (a : Int) (v : Byte) : Statement (.wrcol a v) :=
  fun _ _ => by simp [Instr.row, encode, Presented.tableWord, Row.fits]

theorem wrhalf (a : Int) (v : Nibble) : Statement (.wrhalf a v) :=
  fun _ _ => by simp [Instr.row, encode, Presented.tableWord, Row.fits]

theorem teardown : Statement .teardown :=
  fun _ _ => by simp [Instr.row, encode, Presented.tableWord, Row.fits]

theorem rstring (x : List Nat) (c : Int) : Statement (.rstring x c) :=
  fun _ _ => by simp [Instr.row, encode, Presented.tableWord, Row.fits]

theorem rscroll (x : List Nat) (v : Rat) (n : Int) : Statement (.rscroll x v n) :=
  fun _ _ => by simp [Instr.row, encode, Presented.tableWord, Row.fits]

end Sys2Proof.Laws.RowMatch
end

