-- ==== Sys2Proof/Machine/Flags.lean ====
section
/-! DEFINITION. Flags and condition codes: the block has none (10_state.md R28), so there is no flag computation. An error
"leaves no flag behind"; it is a `report` event. What stands here is the one number an error carries, its code. -/

namespace Sys2Proof.Machine

/-- The numeric code of an error (60_exceptions.md R131). -/
def errorNumber : ErrorCode → Nat
  | .csUnconfigured => 1
  | .badLength => 2
  | .badBoard => 3
  | .range => 4

end Sys2Proof.Machine
end

