-- ==== Sys2Proof/Tests/Slice0.lean ====
section
/-! SUPPORT. The model's own tests. Expected values are taken from 95_test_vectors.md (S, V, P) and from the worked
examples of the rules; each test cites its source. -/

namespace Sys2Proof.Tests

open Sys2Proof.Machine

/-! ## Helpers -/

/-- Configuration K1 of 95_test_vectors.md. -/
def k1 : Cfg := { wr := 3, data := 5, cs0 := 8, cs1 := 7 }
/-- Configuration K2: BOARD1 not wired. -/
def k2 : Cfg := { wr := 3, data := 5, cs0 := 8, cs1 := 0 }
/-- The illustration glyph `A` of V9. -/
def glyphA : Glyph := { g0 := 0x7E, g1 := 0x11, g2 := 0x11, g3 := 0x11, g4 := 0x7E }
/-- The illustration glyphs `H` and `I` of V9. -/
def glyphH : Glyph := { g0 := 0x7F, g1 := 0x08, g2 := 0x08, g3 := 0x08, g4 := 0x7F }
def glyphI : Glyph := { g0 := 0x00, g1 := 0x41, g2 := 0x7F, g3 := 0x41, g4 := 0x00 }
/-- A font with three glyphs, at codes 32, 33 and 34. -/
def font3 : List Glyph := [glyphA, glyphH, glyphI]
/-- After OPEN, under a configuration, with an empty trace so that tests stay small. -/
def opened (c : Cfg) : State :=
  { State.reset with cfg := c, params := { Params.default with font := font3 }, phase := .opened }
/-- The new frames of a chip-select line, when the outcome is a next state. -/
def framesOf (o : Host.Outcome State Fault Refusal) (cs : Pin) : Option (List (List Bool)) :=
  match o with
  | .next t => some (frames t.cfg t.trace cs)
  | _ => none
/-- The trace, when the outcome is a next state. -/
def traceOf (o : Host.Outcome State Fault Refusal) : Option (List Event) :=
  match o with
  | .next t => some t.trace
  | _ => none
/-- A component of the next state. -/
def nextOf {α : Type} (o : Host.Outcome State Fault Refusal) (f : State → α) : Option α :=
  match o with
  | .next t => some (f t)
  | _ => none
def refusalOf (o : Host.Outcome State Fault Refusal) : Option Refusal :=
  match o with
  | .refused r => some r
  | _ => none
/-- The bits of an `n`-bit number, first sent bit first. -/
def bits (n v : Nat) : List Bool := (List.range n).map (fun k => v.testBit (n - 1 - k))

/-! ## WellFormed: an ill-formed term for each check -/

theorem test_wf_column_high : Instr.wf Params.default (.wrcol 32768 0) = false := by decide
theorem test_wf_column_low : Instr.wf Params.default (.wrhalf (-32769) 0) = false := by decide
theorem test_wf_column_ok : Instr.wf Params.default (.wrcol (-32768) 0) = true := by decide
theorem test_wf_cmd_named : Instr.wf Params.default (.cmd .board0 0xAF) = false := by decide
theorem test_wf_cmd_ok : Instr.wf Params.default (.cmd .board1 0x55) = true := by decide
theorem test_wf_named_collision :
    Instr.wf { Params.default with opcLedOn := 0x20 } (.ledOn .board0) = false := by decide
theorem test_wf_named_ok : Instr.wf Params.default (.pwm16Grayscale .board0) = true := by decide
theorem test_wf_chipSelect : Instr.wf Params.default (.transmit 0 12 256) = false := by decide
theorem test_cfg_pin_width : configWf { Params.default with pinW := 3 } k1 = false ∧
    configWf { Params.default with pinW := 4 } k1 = true := by decide
theorem test_cfg_wf : k1.wf = true ∧ k2.wf = true := by decide
theorem test_cfg_wr_zero : Cfg.wf { k1 with wr := 0 } = false := by decide
theorem test_cfg_data_zero : Cfg.wf { k1 with data := 0 } = false := by decide
theorem test_cfg_wr_data : Cfg.wf { k1 with data := 3 } = false := by decide
theorem test_cfg_cs0_wr : Cfg.wf { k1 with cs0 := 3 } = false := by decide
theorem test_cfg_cs0_data : Cfg.wf { k1 with cs0 := 5 } = false := by decide
theorem test_cfg_cs1_wr : Cfg.wf { k1 with cs1 := 3 } = false := by decide
theorem test_cfg_cs1_data : Cfg.wf { k1 with cs1 := 5 } = false := by decide
theorem test_cfg_cs_equal : Cfg.wf { k1 with cs1 := 8 } = false := by decide

/-! ## Decode: every constructor's word, written out from the spec's encoding (R62 to R66, R71) -/

theorem test_decode_cmd : decode Params.default (.frame .board0 12 0b100_01010101_0) = .ok (.cmd .board0 0x55) := by
  rfl
theorem test_decode_wrNib :
    decode Params.default (.frame .board0 14 0b101_0_010101_0011) = .ok (.wrNib .board0 0x15 0x3) := by rfl
theorem test_decode_wrByte :
    decode Params.default (.frame .board1 18 0b101_0_111110_10000001) = .ok (.wrByte .board1 0x3E 0x81) := by rfl
theorem test_decode_systemDisable : decodeTableWord 16 0b100000000000 = some (.systemDisable .board0) := by decide
theorem test_decode_setCommon8Nmos : decodeTableWord 16 0b100001000000 = some (.setCommon8Nmos .board0) := by decide
theorem test_decode_systemEnable : decodeTableWord 16 0b100000000010 = some (.systemEnable .board0) := by decide
theorem test_decode_ledOn : decodeTableWord 16 0b100000000110 = some (.ledOn .board0) := by decide
theorem test_decode_pwm16Grayscale : decodeTableWord 16 0b100101011110 = some (.pwm16Grayscale .board0) := by decide
theorem test_decode_transmit :
    decode Params.default (.request 1 { Fields.zero with word := 0x8020, bitLength := 12, chipSelect := 8 }) =
      .ok (.transmit 0x8020 12 8) := by rfl
theorem test_decode_encCmd :
    decode Params.default (.request 2 { Fields.zero with board := 3, opcode := 0x01, address := 9 }) =
      .ok (.encCmd 3 0x01) := by rfl
theorem test_decode_encNib :
    decode Params.default (.request 3 { Fields.zero with address := 0x15, nibble := 0x3 }) =
      .ok (.encNib 0x15 0x3) := by rfl
theorem test_decode_encByte :
    decode Params.default (.request 4 { Fields.zero with address := 0x02, data := 0xA5 }) =
      .ok (.encByte 0x02 0xA5) := by rfl
theorem test_decode_openLines : decodeTableWord 8 5 = some .openLines := by decide
theorem test_decode_initBoard :
    decode Params.default (.request 6 { Fields.zero with board := 2 }) = .ok (.initBoard 2) := by rfl
theorem test_decode_clear : decodeTableWord 8 7 = some .clear := by decide
theorem test_decode_selftest : decodeTableWord 8 8 = some .selftest := by decide
theorem test_decode_wrcol :
    decode Params.default (.request 9 { Fields.zero with column := 0xFFFE, byteValue := 0xAA }) =
      .ok (.wrcol (-2) 0xAA) := by rfl
/-- R8: the port is `ADDR_W` and `PIN_W` bits wide, whatever those are; wires beyond them are not read. -/
theorem test_decode_widths :
    decode { Params.default with addrW := 10 } (.request 9 { Fields.zero with column := 0x3FE }) = .ok (.wrcol (-2) 0) ∧
    decode { Params.default with pinW := 4 } (.request 1 { Fields.zero with chipSelect := 0x18 }) =
      .ok (.transmit 0 0 8) := ⟨rfl, rfl⟩
theorem test_decode_wrhalf :
    decode Params.default (.request 10 { Fields.zero with column := 256, nibbleValue := 9 }) =
      .ok (.wrhalf 256 0x9) := by rfl
theorem test_decode_teardown : decodeTableWord 8 11 = some .teardown := by decide
theorem test_decode_rstring :
    decode Params.default (.request 12 { Fields.zero with text := [65], startColumn := -5 }) =
      .ok (.rstring [65] (-5)) := by rfl
theorem test_decode_rscroll :
    decode Params.default (.request 13 { Fields.zero with text := [72, 73], speed := 1000, cycles := 1 }) =
      .ok (.rscroll [72, 73] 1000 1) := by rfl
theorem test_decode_reserved :
    (decodeTableWord 8 0, decodeTableWord 8 14, decodeTableWord 8 15) = (none, none, none) := by decide
/-- ID `110`, address bit 6 set, and a command whose pad bit is 1 are none of the three formats (R69 (d), R73). -/
theorem test_decode_malformed :
    (decodeFrame 12 0b110000000000, decodeFrame 14 0b10110000000000, decodeFrame 12 0b100000000001) =
      (none, none, none) := by decide

/-! ## Encode: words of the spec (R62 to R64, V4 to V6) -/

theorem test_encode_cmd : encode Params.default (.cmd .board1 0x55) = .frame .board1 12 0b100010101010 := by decide
theorem test_encode_wrNib : encode Params.default (.wrNib .board0 0x3F 0xA) = .frame .board0 14 0b10101111111010 := by
  decide
theorem test_encode_wrByte :
    encode Params.default (.wrByte .board0 0x14 0x3C) = .frame .board0 18 0b101001010000111100 := by decide

/-! ## Conceptual words (V4 to V6) -/

theorem test_word_command : commandWord 0xFF = 0x9FE0 := by decide
theorem test_word_nibble : nibbleWord 0xFF 0xF = 0xAFFC := by decide
theorem test_word_byte : byteWord 0x7E 0x01 = 0x2BE01 := by decide

/-! ## The meanings -/

/-- V2: the whole event list of one call. -/
theorem test_transmit_events :
    traceOf (exec (.transmit 0x8020 12 8) (opened k1)) = some
      ([.pinWrite 3 .high, .pinWrite 8 .low] ++
        [.pinWrite 5 .high, .pinWrite 3 .low, .pinWrite 3 .high] ++
        (List.replicate 9 [.pinWrite 5 .low, .pinWrite 3 .low, .pinWrite 3 .high]).flatten ++
        [.pinWrite 5 .high, .pinWrite 3 .low, .pinWrite 3 .high] ++
        [.pinWrite 5 .low, .pinWrite 3 .low, .pinWrite 3 .high] ++ [.pinWrite 8 .high]) := by decide
/-- V1: a byte word sent with length 14 sends positions 15..2. V3: both operands bad, the chip-select is reported; a pin that
is not a configured chip-select is refused. -/
theorem test_transmit_cases : framesOf (exec (.transmit 0x2A5A5 14 7) (opened k1)) 7 =
      some [bits 14 0b10100101101001] ∧
    traceOf (exec (.transmit 0x8020 13 0) (opened k1)) = some [.report .csUnconfigured] ∧
    refusalOf (exec (.transmit 0x8020 12 9) (opened k1)) = some .foreignChipSelect := by decide
/-- V4, K1 and K2. -/
theorem test_encCmd : framesOf (exec (.encCmd 1 0xFF) (opened k1)) 7 = some [bits 12 0b100111111110] ∧
    traceOf (exec (.encCmd 1 0xFF) (opened k2)) = some [] := by decide
/-- V4: selector 3; the code is 3 (R131). -/
theorem test_encCmd_bad_board : traceOf (exec (.encCmd 3 0x01) (opened k2)) = some [.report .badBoard] ∧
    errorNumber .badBoard = 3 := by decide
/-- V5: an alias of address 0x40. -/
theorem test_encNib_alias : framesOf (exec (.encNib 0x80 0x9) (opened k1)) 7 = some [bits 14 0b10100000001001] ∧
    nextOf (exec (.encNib 0x80 0x9) (opened k1)) (fun t => t.ram.read .board1 0) = some (some 9) := by decide
/-- V6: an odd address; and 0x80, dropped with no report. -/
theorem test_encByte_odd : traceOf (exec (.encByte 0x80 0x55) (opened k1)) = some [] ∧
    framesOf (exec (.encByte 0x03 0x96) (opened k1)) 8 = some [bits 18 0b101000001110010110] ∧
    nextOf (exec (.encByte 0x03 0x96) (opened k1)) (fun t => t.ram) = some [(3, 9), (4, 6)] := by decide
/-- V6: chip address 63: every other location of RAM[0] is unspecified, RAM[1] is as before. -/
theorem test_encByte_63 :
    nextOf (exec (.encByte 0x3F 0xFF) { opened k1 with ram := [(0, 1), (64, 2)] }) (fun t => t.ram) =
      some [(63, 0xF), (64, 2)] := by decide
/-- The frame of row CMD (V4, opcode 0x55); R46: after a command frame nothing of that chip is known (log 14). -/
theorem test_cmd : framesOf (exec (.cmd .board0 0x55) (opened k1)) 8 = some [bits 12 0b100010101010] ∧
    nextOf (exec (.cmd .board0 0x55) { opened k1 with ram := [(0, 1), (64, 2)] }) (fun t => t.ram) =
    some [(64, 2)] := by decide
/-- The frame of row WR_NIB, as V5's first alias-free row. -/
theorem test_wrNib : framesOf (exec (.wrNib .board0 0x15 0x3) (opened k1)) 8 = some [bits 14 0b10100101010011] := by
  decide
theorem test_wrByte : framesOf (exec (.wrByte .board1 0x3E 0x01) (opened k1)) 7 =
    some [bits 18 0b101011111000000001] := by decide
/-- R66: the frames with the default opcodes; LC is untouched (R24). -/
theorem test_systemDisable : framesOf (exec (.systemDisable .board0) (opened k1)) 8 = some [bits 12 0b100000000000] ∧
    nextOf (exec (.systemDisable .board0) (opened k1)) (fun t => t.lc0) = some .uninit := by decide
theorem test_setCommon8Nmos : framesOf (exec (.setCommon8Nmos .board0) (opened k1)) 8 =
    some [bits 12 0b100001000000] := by decide
theorem test_systemEnable : framesOf (exec (.systemEnable .board0) (opened k1)) 8 = some [bits 12 0b100000000010] := by
  decide
theorem test_ledOn : framesOf (exec (.ledOn .board0) (opened k1)) 8 = some [bits 12 0b100000000110] := by decide
theorem test_pwm16Grayscale : framesOf (exec (.pwm16Grayscale .board1) (opened k1)) 7 =
    some [bits 12 0b100101011110] := by decide
/-- V7: OPEN under K1 and K2. -/
theorem test_open : traceOf (exec .openLines { State.reset with cfg := k1 }) =
      some [.configure 3 .high, .configure 5 .low, .configure 8 .high, .configure 7 .high] ∧
    traceOf (exec .openLines { State.reset with cfg := k2 }) =
      some [.configure 3 .high, .configure 5 .low, .configure 8 .high] := by decide
/-- V7: a second OPEN is refused. -/
theorem test_open_twice : refusalOf (exec .openLines (opened k1)) = some .wrongPhase := by decide
set_option maxRecDepth 20000 in
/-- V7: INIT(BOARD1), default opcodes: five frames on pin 7. -/
theorem test_init : framesOf (exec (.initBoard 1) (opened k1)) 7 = some [bits 12 0b100000000000,
      bits 12 0b100001000000, bits 12 0b100000000010, bits 12 0b100000000110, bits 12 0b100101011110] ∧
    nextOf (exec (.initBoard 1) (opened k1)) (fun t => (t.lc0, t.lc1, t.trace.length)) =
      some (.uninit, .enabled, 196) := by decide
/-- V7: INIT of an unwired board. -/
theorem test_init_unwired : nextOf (exec (.initBoard 1) (opened k2)) (fun t => (t.trace, t.lc1)) = some ([], .uninit) := by
  decide
/-- V7: CLEAR before OPEN is refused. -/
theorem test_clear_closed : refusalOf (exec .clear State.reset) = some .wrongPhase := by decide
set_option maxRecDepth 20000 in
/-- R103 with no board wired: nothing is sent; SELFTEST still waits (R104). -/
theorem test_selftest_unwired :
    traceOf (exec .selftest (opened { k2 with cs0 := 0 })) = some [.delay (mkRat 1 10)] := by decide
/-- V7: WRCOL(20, 0x3C), and WRCOL(-2, 0xAA). -/
theorem test_wrcol : framesOf (exec (.wrcol 20 0x3C) (opened k1)) 8 = some [bits 18 0b101001010000111100] ∧
    traceOf (exec (.wrcol (-2) 0xAA) (opened k1)) = some [] := by decide
/-- V7: WRCOL(128, 0x55) and WRCOL(300, 0xAA). -/
theorem test_wrcol_dropped : traceOf (exec (.wrcol 128 0x55) (opened k1)) = some [] ∧
    traceOf (exec (.wrcol 300 0xAA) (opened k1)) = some [] := by decide
/-- V7: WRHALF(0x80, 0x9), WRHALF(256, 0x9), WRHALF(-1, 0x9). -/
theorem test_wrhalf : framesOf (exec (.wrhalf 0x80 0x9) (opened k1)) 7 = some [bits 14 0b10100000001001] ∧
    traceOf (exec (.wrhalf 256 0x9) (opened k1)) = some [] ∧ traceOf (exec (.wrhalf (-1) 0x9) (opened k1)) = some [] := by
  decide
set_option maxRecDepth 20000 in
/-- V7: TEARDOWN with no board wired, and in the phases that make it a no-op. -/
theorem test_teardown : nextOf (exec .teardown (opened { k2 with cs0 := 0 })) (fun t => (t.phase, t.trace, t.levels)) =
      some (.released, [.releaseAll], []) ∧
    nextOf (exec .teardown State.reset) (fun t => (t.phase, t.trace)) = some (.closed, []) := by decide
/-- V9: RSTRING("A", 63): one frame, address 126; five calls dropped. Code 32 stands for the glyph `A` here. -/
theorem test_rstring : framesOf (exec (.rstring [32] 63) (opened k1)) 7 = some [bits 18 0b101011111001111110] ∧
    framesOf (exec (.rstring [32] 63) (opened k1)) 8 = some [] := by decide
/-- V9: a control character rejects the whole request. -/
theorem test_rstring_range : traceOf (exec (.rstring [32, 31] 0) (opened k1)) = some [.report .range] := by decide
/-- V9: RSCROLL(text, 0, 1) is refused; zero cycles render nothing. -/
theorem test_rscroll_operands : refusalOf (exec (.rscroll [33, 34] 0 1) (opened k1)) = some .scrollOperands ∧
    traceOf (exec (.rscroll [33, 34] 1000 0) (opened k1)) = some [] := by decide
set_option maxRecDepth 20000 in
/-- R123 on no wired board: twelve delays of 1 ms. -/
theorem test_rscroll_delays : traceOf (exec (.rscroll [33, 34] 1000 1) (opened { k2 with cs0 := 0 })) =
    some (List.replicate 12 (.delay (mkRat 1 1000))) := by decide

/-! ## reverse8 (V8) and the outer layer's lists -/

theorem test_reverse8 : reverse8 0x51 = 0x8A ∧ reverse8 0xF0 = 0x0F ∧ reverse8 0x7F = 0xFE := by decide
theorem test_reverse8Formula : reverse8Formula 0x51 = 0x8A ∧ reverse8Formula 0xFF = 0xFF := by decide
/-- R123: twelve offsets, 0 down to -11. -/
theorem test_scrollOffsets : scrollOffsets [72, 73] = [0, -1, -2, -3, -4, -5, -6, -7, -8, -9, -10, -11] := by decide
theorem test_evenAddresses : evenAddresses.length = 64 ∧ evenAddresses.getLast? = some 126 := by decide

/-! ## Steps -/

/-- From reset the table words of OPEN and TEARDOWN run; every other request is refused (R110). -/
theorem test_step_open : nextOf (step (State.reset.withFetchWord 8 5)) (fun t => (t.phase, t.requests)) =
    some (.opened, []) := by decide
theorem test_step_clear : refusalOf (step (State.reset.withFetchWord 8 7)) = some .wrongPhase := by decide
theorem test_step_reserved : refusalOf (step (State.reset.withFetchWord 8 14)) = some .reservedRequestCode := by decide
theorem test_step_illformed :
    refusalOf (step (State.withFetchWord { State.reset with cfg := { k1 with wr := 0 } } 8 5)) =
      some .illFormedConfiguration := by decide

/-! ## Witnesses: for each statement of Obligations.lean with hypotheses, a state and operands that meet them together -/

/-- A reachable state in `PHASE = OPEN`, every wired board enabled, nothing sent yet but the Configure events. -/
def live (c : Cfg) : State :=
  { opened c with
    lc0 := if wired c .board0 then .enabled else .uninit
    lc1 := if wired c .board1 then .enabled else .uninit
    trace := openEvents c Params.default
    levels := levelsOf (openEvents c Params.default) }
/-- `live` with one request presented. -/
def liveWith (i : Instr) : State := { live k1 with requests := [encode Params.default i] }
/-- No board wired. -/
def k0 : Cfg := { wr := 3, data := 5, cs0 := 0, cs1 := 0 }

theorem live_inv : Inv (liveWith (.encNib 0x40 0x5)) where
  levels_wf := by decide
  ram_wf := by decide
  levels_trace := by decide
  driven := by intro _ p h; rcases h with h | h <;> subst h <;> decide
  cs_high := by intro _ _ b; cases b <;> decide
  released_z := fun h => absurd rfl h
  lc_wired := by intro b; cases b <;> decide
  frames_closed := by intro b; cases b <;> decide

theorem live_ramIsFrames : RamIsFrames (liveWith (.encNib 0x40 0x5)) := by intro b; cases b <;> decide

theorem live_neverBothLow : NeverBothLow (liveWith (.encNib 0x40 0x5)) := by
  intro _ _ n
  match n with
  | 0 | 1 | 2 | 3 => decide
  | n + 4 =>
    rw [List.take_of_length_le (show (liveWith (.encNib 0x40 0x5)).trace.length ≤ n + 4 from
      Nat.le_add_left 4 n)]
    decide

theorem witness_StepRunsTheDecodedInstruction : ∃ x rest i, (liveWith (.encNib 0x40 0x5)).requests = x :: rest ∧
    decode (liveWith (.encNib 0x40 0x5)).params x = .ok i := ⟨_, [], .encNib 0x40 0x5, rfl, rfl⟩
theorem witness_StepRefuses_code :
    (State.reset.withFetchWord 8 15).requests = [.request 15 Fields.zero] := by decide
theorem witness_StepRefuses_frame :
    (State.withFetchWord State.reset 16 0x801).requests = [.frame .board0 12 0x801] ∧
    ¬ (12 = 12 ∧ 0x801 < 2 ^ 12 ∧ 0x801 &&& 0xE01 = 0x800) ∧ ¬ (12 = 14 ∧ 0x801 < 2 ^ 14 ∧ 0x801 &&& 0x3C00 = 0x2800) ∧
    ¬ (12 = 18 ∧ 0x801 < 2 ^ 18 ∧ 0x801 &&& 0x3C000 = 0x28000) := by decide
theorem witness_StepRefuses_empty : State.reset.requests = [] := rfl
theorem witness_DecodeOfEncode : Instr.wf Params.default (.wrcol (-32768) 0xFF) = true ∧
    Instr.wf Params.default (.cmd .board1 0xFF) = true ∧ Instr.wf Params.default (.ledOn .board0) = true ∧
    Instr.wf Params.default (.transmit 0x3FFFF 31 255) = true := by decide
theorem witness_OverlappingFramesDecodeToTheFirstName : Params.default.named 0xAF = some .pwm16Grayscale ∧
    Params.named { Params.default with opcLedOn := 0x20 } 0x20 = some .setCommon8Nmos := by decide
theorem witness_FramesHaveOneMeaning :
    decode Params.default (.frame .board1 18 0b101_0_111111_11111111) = .ok (.wrByte .board1 0x3F 0xFF) := by rfl
/-- For StepKeepsTheInvariants, StepKeepsRamAsFramesSay and StepNeverLowersBothChipSelects. -/
theorem witness_StepKeepsTheInvariants :
    ∃ s t, Inv s ∧ s.params.initCs = .high ∧ RamIsFrames s ∧ NeverBothLow s ∧ s.requests ≠ [] ∧ step s = .next t :=
  ⟨liveWith (.encNib 0x40 0x5), _, live_inv, rfl, live_ramIsFrames, live_neverBothLow, by decide, rfl⟩
theorem witness_PhaseDecidesWhatIsTaken :
    configWf Params.default { k1 with wr := 0 } = false ∧ configWf State.reset.params State.reset.cfg = true ∧ State.reset.phase = .closed ∧
    configWf (live k1).params (live k1).cfg = true ∧ (live k1).phase = .opened ∧ ({ live k1 with phase := .released } : State).phase = .released := by
  decide
theorem live_ready (c : Cfg) (h : configWf (live c).params c = true) : Ready (live c) := ⟨h, rfl⟩
theorem witness_OnlyTwoRequestsAreRefusedWhenOpen : Ready (live k1) ∧ (9 ≠ 0 ∧ 9 ≠ (live k1).cfg.cs0 ∧ 9 ≠ (live k1).cfg.cs1) ∧
    exec (.transmit 0 12 9) (live k1) = .refused .foreignChipSelect ∧
    ((0 : Rat) ≤ 0 ∨ (-1 : Int) < 0) ∧ exec (.rscroll [] 1 (-1)) (live k1) = .refused .scrollOperands :=
  ⟨live_ready k1 (by decide), by decide, rfl, by decide, rfl⟩
theorem witness_TransmitSendsTheWordsBits : Ready (live k2) ∧ wired k2 .board0 = true ∧
    ((18 : BitVec 5) = 12 ∨ (18 : BitVec 5) = 14 ∨ (18 : BitVec 5) = 18) ∧
    ¬ ((31 : BitVec 5) = 12 ∨ (31 : BitVec 5) = 14 ∨ (31 : BitVec 5) = 18) :=
  ⟨live_ready k2 (by decide), by decide, by decide, by decide⟩
theorem witness_TransmitAddsOneFrame : ∃ s, Inv s ∧ Ready s ∧ wired s.cfg .board1 = true ∧
    ((14 : BitVec 5) = 12 ∨ (14 : BitVec 5) = 14 ∨ (14 : BitVec 5) = 18) :=
  ⟨_, live_inv, ⟨by decide, rfl⟩, by decide, by decide⟩
theorem witness_LinesAfterTransmit : wired k1 .board1 = true ∧
    ((12 : BitVec 5) = 12 ∨ (12 : BitVec 5) = 14 ∨ (12 : BitVec 5) = 18) ∧
    ∃ t, exec (.transmit 0x8020 12 (resolve k1 .board1)) (live k1) = .next t := ⟨by decide, by decide, _, rfl⟩
/-- For EncCmdSendsTheCommandFrame, EncNibRoutesEveryAddress, EncByteRoutesTheLowerHalf: ready, with selectors and addresses at the boundaries of each clause. -/
theorem witness_Encoders : Ready (live k1) ∧ ((0 : BitVec 2) = 0 ∧ (1 : BitVec 2) = 1) ∧
    ((2 : BitVec 2) = 2 ∨ (2 : BitVec 2) = 3) ∧ ((3 : BitVec 2) = 2 ∨ (3 : BitVec 2) = 3) ∧
    (0x3F : Byte).toNat ≤ 0x3F ∧ 0x40 ≤ (0x40 : Byte).toNat ∧ 0x40 ≤ (0xFF : Byte).toNat ∧
    (0x40 ≤ (0x7F : Byte).toNat ∧ (0x7F : Byte).toNat ≤ 0x7F) ∧ 0x80 ≤ (0x80 : Byte).toNat :=
  ⟨live_ready k1 (by decide), by decide⟩
theorem witness_UnwiredBoardIsSkippedSilently : Ready (live k2) ∧ wired k2 .board1 = false ∧
    routedBoard (0x40 : Byte).toNat = .board1 ∧ Ready (live k0) ∧ wired k0 .board0 = false ∧ wired k0 .board1 = false ∧
    (∀ ch ∈ [32, 34], 32 ≤ ch ∧ ch - 32 < (live k0).params.font.length) :=
  ⟨live_ready k2 (by decide), by decide, by decide, live_ready k0 (by decide), by decide⟩
/-- For WireFramesAreSent, NamedCommandsSendTheirOpcode, ClearWritesZeroEverywhere, SelftestLightsThenClears. -/
theorem witness_WireFramesAreSent : Ready (live k1) ∧ Ready (live k2) :=
  ⟨live_ready k1 (by decide), live_ready k2 (by decide)⟩
/-- For OpenConfiguresTheLines and StartupEnablesEveryWiredBoard. -/
theorem witness_OpenConfiguresTheLines : configWf State.reset.params State.reset.cfg = true ∧ State.reset.phase = .closed := by decide
theorem witness_InitSendsFiveCommandsAndEnables : Ready (live k2) ∧
    ((0 : BitVec 2) = BitVec.ofNat 2 (boardIndex .board0) ∧ wired k2 .board0 = true) ∧
    ((1 : BitVec 2) = BitVec.ofNat 2 (boardIndex .board1) ∧ wired k2 .board1 = false) :=
  ⟨live_ready k2 (by decide), by decide⟩
theorem witness_ColumnWritesPassThrough : Ready (live k1) ∧ ((0 : Int) ≤ 0 ∧ (0 : Int) ≤ 255) ∧
    ((0 : Int) ≤ 255 ∧ (255 : Int) ≤ 255) ∧ (-1 : Int) < 0 ∧ (255 : Int) < 256 :=
  ⟨live_ready k1 (by decide), by decide⟩
theorem witness_TeardownClearsAndReleasesOnce : configWf (live k1).params (live k1).cfg = true ∧ (live k1).phase = .opened ∧
    configWf State.reset.params State.reset.cfg = true ∧ State.reset.phase ≠ .opened := by decide
/-- For RenderStringIsColumnWrites and ScrollRendersEveryOffset: a text that has its glyphs, with codes at both ends of the font, and texts that do not. -/
theorem witness_Rendering : Ready (live k1) ∧ (0 : Rat) < 1 ∧
    (∀ ch ∈ [32, 34], 32 ≤ ch ∧ ch - 32 < (live k1).params.font.length) ∧
    (∃ ch ∈ [32, 31], ch < 32 ∨ (live k1).params.font.length ≤ ch - 32) ∧
    (∃ ch ∈ [35], ch < 32 ∨ (live k1).params.font.length ≤ ch - 32) :=
  ⟨live_ready k1 (by decide), by decide, by decide, by decide, by decide⟩
/-- For NibbleWriteStoresOneLocation and ByteWriteStoresTwoLocations: writes on an enabled board, at the boundaries of the routing and of the chip. -/
theorem witness_RamWrites : Ready (live k1) ∧
    (wired (live k1).cfg (routedBoard (0x3F : Byte).toNat) = true ∧ (live k1).lc (routedBoard (0x3F : Byte).toNat) = .enabled) ∧
    (wired (live k1).cfg (routedBoard (0xFF : Byte).toNat) = true ∧ (live k1).lc (routedBoard (0xFF : Byte).toNat) = .enabled) ∧
    (0x7E : Byte).toNat ≤ 0x7F ∧ (0x7F : Byte).setWidth 6 = (63 : BitVec 6) :=
  ⟨live_ready k1 (by decide), by decide⟩
theorem witness_ClearingZeroesTheRam : Ready (live k2) ∧ (wired k2 .board0 = true ∧ (live k2).lc .board0 = .enabled) ∧
    wired k2 .board1 = false := ⟨live_ready k2 (by decide), by decide⟩
theorem witness_RamChangesOnlyByItsOwnFrames : ∃ t es, exec (.encNib 0x00 0xF) (live k1) = .next t ∧
    t.trace = (live k1).trace ++ es ∧ .pinWrite (resolve k1 .board1) .low ∉ es :=
  ⟨_, frameEvents k1 8 (nibbleBits 0 0xF), rfl, by decide, by decide⟩
theorem witness_WritesAreIdempotentOnRam : Memory.wf (live k1).ram = true ∧
    (∃ t, exec (.encNib 0xC0 0x9) (live k1) = .next t) ∧ ∃ t, exec (.encByte 0x3F 0x9) (live k1) = .next t :=
  ⟨by decide, ⟨_, rfl⟩, ⟨_, rfl⟩⟩
theorem witness_RamIsNeverRead : (∃ t, exec (.encByte 0x00 0x9) (live k1) = .next t) ∧
    exec .openLines (live k1) = .refused .wrongPhase := ⟨⟨_, rfl⟩, rfl⟩
theorem witness_EventsDependOnInputsAndPhaseOnly : (opened k1).cfg = (live k1).cfg ∧ (opened k1).params = (live k1).params ∧
    (opened k1).phase = (live k1).phase ∧ opened k1 ≠ live k1 ∧ ∃ t, exec (.encByte 0x00 0x9) (live k1) = .next t :=
  ⟨rfl, rfl, rfl, by decide, _, rfl⟩
/-- For PhaseAndLifecycleMoveOnlySo, InputsStayAndTheTraceGrows, AReportStandsAlone: a next state with a change of PHASE, one with a change of LC, and one with a report. -/
theorem witness_WholeMachineRules : (∃ t, exec .openLines State.reset = .next t ∧ t.phase ≠ State.reset.phase) ∧
    (∃ t, exec (.initBoard 1) (opened k1) = .next t ∧ t.lc .board1 ≠ (opened k1).lc .board1) ∧
    (∃ t, exec (.encCmd 2 0) (live k1) = .next t ∧ t.trace = (live k1).trace ++ [.report .badBoard] ∧
      reports [.report .badBoard] ≠ []) :=
  ⟨⟨_, rfl, by decide⟩, ⟨_, rfl, by decide⟩, ⟨_, rfl, by decide, by decide⟩⟩
theorem witness_WhoMayReportWhat : exec (.transmit 0 13 7) (live k1) = .next (reported .badLength (live k1)) := rfl
theorem witness_EventsNameConfiguredPinsOnly : ∃ t es, exec (.encNib 0x40 0xF) (live k1) = .next t ∧
    t.trace = (live k1).trace ++ es ∧ .pinWrite 7 .low ∈ es ∧ eventPin (.pinWrite 7 .low) = some 7 :=
  ⟨_, frameEvents k1 7 (nibbleBits 0 0xF), rfl, by decide, by decide, rfl⟩
theorem witness_OnlyTheThreeFormatsAreSent : ∃ s t, Inv s ∧ exec (.encNib 0x40 0xF) s = .next t ∧
    wired s.cfg .board1 = true ∧ ∀ w n c, Instr.encNib 0x40 0xF ≠ .transmit w n c :=
  ⟨_, _, live_inv, rfl, by decide, by intro w n c h; cases h⟩
theorem witness_EventCounts : (live k1).phase = .opened ∧ (∃ t, exec (.encNib 0x40 0xF) (live k1) = .next t) ∧
    (∃ t, exec .openLines State.reset = .next t) ∧ State.reset.phase ≠ .opened ∧
    ∃ t, exec .teardown State.reset = .next t := ⟨rfl, ⟨_, rfl⟩, ⟨_, rfl⟩, by decide, ⟨_, rfl⟩⟩

end Sys2Proof.Tests
end

section
/-! PROOFS. One equation of `step` for each of its cases: nothing presented, an input that decodes, an input that does
not. -/

namespace Sys2Proof.Machine

/-- With nothing presented nothing happens (log 7). -/
theorem step_of_no_request {s : State} (hq : s.requests = []) : step s = .next s := by
  simp only [step, hq]

/-- The instruction runs at the state whose stream no longer holds the input it was decoded from (00_scope.md R13). -/
theorem step_of_decode_ok {s : State} {x : Presented} {rest : List Presented} {i : Instr}
    (hq : s.requests = x :: rest) (hd : decode s.params x = .ok i) :
    step s = exec i { s with requests := rest } := by
  simp only [step, hq, hd]

/-- What the decoder rejects ends in the refusal of that reason (60_exceptions.md R141 (d), log 9). -/
theorem step_of_decode_error {s : State} {x : Presented} {rest : List Presented} {r : Reject}
    (hq : s.requests = x :: rest) (hd : decode s.params x = .error r) :
    step s = .refused (Refusal.ofReject r) := by
  simp only [step, hq, hd]

/-- Settles O1: it is the equation of `step` for an input that decodes. -/
theorem stepRunsTheDecodedInstruction : Obligations.StepRunsTheDecodedInstruction :=
  fun _ _ _ _ => step_of_decode_ok

end Sys2Proof.Machine
end

section
/-! PROOFS. The pins of a well-formed configuration (00_scope.md R7, D4). -/

namespace Sys2Proof.Machine

/-- WR, DATA and the chip-selects of the wired boards are pairwise different, and WR and DATA are not 0. -/
structure PinsApart (c : Cfg) : Prop where
  wr_ne_zero : c.wr ≠ 0
  data_ne_zero : c.data ≠ 0
  wr_ne_data : c.wr ≠ c.data
  cs_ne_wr : ∀ {b}, wired c b = true → resolve c b ≠ c.wr
  cs_ne_data : ∀ {b}, wired c b = true → resolve c b ≠ c.data
  cs_ne_cs : ∀ {b b'}, wired c b = true → wired c b' = true → b ≠ b' → resolve c b ≠ resolve c b'

theorem resolve_ne_zero {c : Cfg} {b : Board} (hb : wired c b = true) : resolve c b ≠ 0 := by
  simpa [wired] using hb

theorem pinsApart_of_configWf {p : Params} {c : Cfg} (hw : configWf p c = true) : PinsApart c := by
  simp only [configWf, Cfg.wf, Bool.and_eq_true, Bool.or_eq_true, bne_iff_ne, beq_iff_eq] at hw
  obtain ⟨⟨⟨⟨⟨⟨hwr, hdata⟩, hwd⟩, h0⟩, h1⟩, h01⟩, -⟩ := hw
  refine ⟨hwr, hdata, hwd, fun {b} hb => ?_, fun {b} hb => ?_, fun {b b'} hb hb' hne => ?_⟩
  · have := resolve_ne_zero hb
    cases b <;> simp_all [resolve]
  · have := resolve_ne_zero hb
    cases b <;> simp_all [resolve]
  · have := resolve_ne_zero hb
    have := resolve_ne_zero hb'
    cases b <;> cases b' <;> simp_all only [resolve, ne_eq, not_true_eq_false, false_or, not_false_eq_true]
    exact Ne.symm h01

/-- A wired board is found by its own chip-select (40_bitserializer.md R86). -/
theorem boardOfPin_resolve {c : Cfg} {b : Board} (hp : PinsApart c) (hb : wired c b = true) :
    boardOfPin c (resolve c b) = some b := by
  cases b with
  | board0 => simp [boardOfPin, resolve]
  | board1 =>
    have hne : c.cs1 ≠ c.cs0 := by
      intro he
      have h0 : wired c .board0 = true := by simpa [wired, resolve, ← he] using hb
      exact hp.cs_ne_cs hb h0 (by decide) he
    simp [boardOfPin, resolve, hne]

end Sys2Proof.Machine
end

section
/-! PROOFS. What a list of events does to one line of LEVEL (10_state.md R25), and which pins the events of the block
name. -/

namespace Sys2Proof.Machine

/-- The event puts the line `p` to LOW. -/
def Lowers (p : Pin) (e : Event) : Prop := e = .configure p .low ∨ e = .pinWrite p .low

@[simp] theorem Levels.line_nil (p : Pin) : Levels.line [] p = .z := rfl

section Lines
variable {lv : Levels} {p : Pin} {e : Event} {es : List Event}

theorem Levels.line_after_other (hp : eventPin e ≠ some p) (hr : e ≠ .releaseAll) :
    Levels.line (Levels.after lv e) p = Levels.line lv p := by
  cases e with
  | configure q l => simp_all [Levels.after, Levels.line_set, eventPin, eq_comm]
  | pinWrite q l => simp_all [Levels.after, Levels.line_set, eventPin, eq_comm]
  | releaseAll => exact absurd rfl hr
  | delay t => rfl
  | report c => rfl

/-- An event that names a pin drives it. -/
theorem Levels.line_after_self (hp : eventPin e = some p) : Levels.line (Levels.after lv e) p ≠ .z := by
  cases e <;> simp_all [Levels.after, Levels.line_set, eventPin]

/-- A line that no event names, and that is not released, stays as it is. -/
theorem Levels.line_foldl_other (hp : ∀ e ∈ es, eventPin e ≠ some p) (hr : .releaseAll ∉ es) :
    Levels.line (es.foldl Levels.after lv) p = Levels.line lv p :=
  List.foldlRecOn (motive := fun lv' => Levels.line lv' p = Levels.line lv p) es _ rfl fun _ h e he =>
    (Levels.line_after_other (hp e he) (ne_of_mem_of_not_mem he hr)).trans h

/-- A driven line stays driven until it is released. -/
theorem Levels.line_foldl_ne_z (hr : .releaseAll ∉ es) (h : Levels.line lv p ≠ .z) :
    Levels.line (es.foldl Levels.after lv) p ≠ .z := by
  refine List.foldlRecOn (motive := fun lv' => Levels.line lv' p ≠ .z) es _ h fun lv' h e he => ?_
  by_cases hp : eventPin e = some p
  · exact Levels.line_after_self hp
  · rwa [Levels.line_after_other hp (ne_of_mem_of_not_mem he hr)]

/-- A line that some event names is driven afterwards, unless it is released. -/
theorem Levels.line_foldl_driven (hr : .releaseAll ∉ es) (he : e ∈ es) (hp : eventPin e = some p) :
    Levels.line (es.foldl Levels.after lv) p ≠ .z := by
  obtain ⟨as, bs, rfl⟩ := List.append_of_mem he
  rw [List.foldl_append, List.foldl_cons]
  exact Levels.line_foldl_ne_z (by simp_all) (Levels.line_after_self hp)

theorem Levels.line_after_ne_low (he : ¬ Lowers p e) (h : Levels.line lv p ≠ .driven .low) :
    Levels.line (Levels.after lv e) p ≠ .driven .low := by
  cases e with
  | configure q l => simp only [Levels.after, Levels.line_set]; split <;> simp_all [Lowers]
  | pinWrite q l => simp only [Levels.after, Levels.line_set]; split <;> simp_all [Lowers]
  | releaseAll => simp [Levels.after]
  | delay t => exact h
  | report c => exact h

/-- A line becomes LOW only by an event that lowers it. -/
theorem Levels.line_foldl_ne_low (hes : ∀ e ∈ es, ¬ Lowers p e) (h : Levels.line lv p ≠ .driven .low) :
    Levels.line (es.foldl Levels.after lv) p ≠ .driven .low :=
  List.foldlRecOn (motive := fun lv' => Levels.line lv' p ≠ .driven .low) es _ h fun _ h e he =>
    Levels.line_after_ne_low (hes e he) h

end Lines

/-- A line that is driven, and not to LOW, is high. -/
theorem eq_driven_high {x : LineState} (hz : x ≠ .z) (hl : x ≠ .driven .low) : x = .driven .high :=
  match x with
  | .z => absurd rfl hz
  | .driven .low => absurd rfl hl
  | .driven .high => rfl

theorem levelsOf_append (trace es : List Event) :
    levelsOf (trace ++ es) = es.foldl Levels.after (levelsOf trace) := List.foldl_append

/-! ## The events of OPEN (42_displaycontroller.md R100) -/

theorem mem_openEvents {c : Cfg} {p : Params} {e : Event} : e ∈ openEvents c p ↔
    e = .configure c.wr p.initWr ∨ e = .configure c.data p.initData ∨
      ∃ b, wired c b = true ∧ e = .configure (resolve c b) p.initCs := by
  have hb : (∃ b, wired c b = true ∧ e = .configure (resolve c b) p.initCs) ↔
      (c.cs0 ≠ 0 ∧ e = .configure c.cs0 p.initCs) ∨ (c.cs1 ≠ 0 ∧ e = .configure c.cs1 p.initCs) := by
    constructor
    · rintro ⟨b | b, h⟩
      · exact .inl (by simpa [wired, resolve] using h)
      · exact .inr (by simpa [wired, resolve] using h)
    · rintro (h | h)
      · exact ⟨.board0, by simpa [wired, resolve] using h⟩
      · exact ⟨.board1, by simpa [wired, resolve] using h⟩
  rw [hb]
  unfold openEvents
  split <;> split <;> simp_all

theorem releaseAll_notMem_openEvents {c : Cfg} {p : Params} : .releaseAll ∉ openEvents c p := by
  simp [mem_openEvents]

theorem pinWrite_notMem_openEvents {c : Cfg} {p : Params} {q : Pin} {l : Level} :
    .pinWrite q l ∉ openEvents c p := by
  simp [mem_openEvents]

/-- With `INIT_CS = HIGH` OPEN lowers no chip-select. -/
theorem openEvents_not_lowers {c : Cfg} {p : Params} {b : Board} (hp : PinsApart c) (hi : p.initCs = .high)
    (hb : wired c b = true) : ∀ e ∈ openEvents c p, ¬ Lowers (resolve c b) e := by
  intro e he
  obtain rfl | rfl | ⟨b', -, rfl⟩ := mem_openEvents.1 he
  · simp [Lowers, (hp.cs_ne_wr hb).symm]
  · simp [Lowers, (hp.cs_ne_data hb).symm]
  · simp [Lowers, hi]

/-! ## The events and the lines of a frame (40_bitserializer.md R80; 10_state.md R27) -/

section Frames
variable {c : Cfg} {cs p : Pin} {bits : List Bool} {lv : Levels}

/-- A frame is pin writes, of WR, DATA and its own chip-select. -/
theorem mem_frameEvents {e : Event} (he : e ∈ frameEvents c cs bits) :
    ∃ p l, e = .pinWrite p l ∧ (p = c.wr ∨ p = c.data ∨ p = cs) := by
  simp only [frameEvents, bitEvents, List.mem_append, List.mem_flatMap, List.mem_cons, List.not_mem_nil,
    or_false] at he
  obtain ((rfl | rfl) | ⟨x, -, rfl | rfl | rfl⟩) | rfl := he <;> simp

theorem releaseAll_notMem_frameEvents : .releaseAll ∉ frameEvents c cs bits := by
  intro he
  obtain ⟨_, _, h, -⟩ := mem_frameEvents he
  cases h

/-- A frame lowers no line but WR, DATA and its own chip-select. -/
theorem frameEvents_not_lowers (hw : p ≠ c.wr) (hd : p ≠ c.data) (hc : p ≠ cs) :
    ∀ e ∈ frameEvents c cs bits, ¬ Lowers p e := by
  intro e he
  obtain ⟨q, l, rfl, hq⟩ := mem_frameEvents he
  rintro (h | h) <;> cases h
  simp_all

theorem Levels.line_frame_other (hw : p ≠ c.wr) (hd : p ≠ c.data) (hc : p ≠ cs) :
    Levels.line ((frameEvents c cs bits).foldl Levels.after lv) p = Levels.line lv p := by
  refine Levels.line_foldl_other (fun e he => ?_) releaseAll_notMem_frameEvents
  obtain ⟨q, l, rfl, hq⟩ := mem_frameEvents he
  rintro ⟨⟩
  simp_all

theorem Levels.line_frame_cs : Levels.line ((frameEvents c cs bits).foldl Levels.after lv) cs = .driven .high := by
  rw [frameEvents, List.foldl_append]
  simp [Levels.after, Levels.line_set]

/-- Every bit ends with WR high. -/
theorem Levels.line_bits_wr (h : Levels.line lv c.wr = .driven .high) :
    Levels.line ((bits.flatMap (bitEvents c)).foldl Levels.after lv) c.wr = .driven .high := by
  rw [List.foldl_flatMap]
  refine List.foldlRecOn (motive := fun lv' => Levels.line lv' c.wr = .driven .high) bits _ h fun lv' _ b _ => ?_
  simp [bitEvents, Levels.after, Levels.line_set]

theorem Levels.line_frame_wr (hc : cs ≠ c.wr) :
    Levels.line ((frameEvents c cs bits).foldl Levels.after lv) c.wr = .driven .high := by
  simp only [frameEvents, List.foldl_append, List.foldl_cons, List.foldl_nil, Levels.after, Levels.line_set,
    if_neg hc.symm]
  exact Levels.line_bits_wr (by simp [Levels.line_set, hc.symm])

/-- DATA keeps the level of the last bit. -/
theorem Levels.line_frame_data {b : Bool} (hwd : c.wr ≠ c.data) (hc : cs ≠ c.data) (hb : bits.getLast? = some b) :
    Levels.line ((frameEvents c cs bits).foldl Levels.after lv) c.data = .driven (lvl b) := by
  obtain ⟨front, rfl⟩ := List.getLast?_eq_some_iff.1 hb
  simp [frameEvents, bitEvents, List.foldl_append, Levels.after, Levels.line_set, hc.symm, hwd.symm]

end Frames

/-! ## The lines over a list of emissions -/

/-- The chip-select of every wired board is high. -/
def ChipSelectsHigh (c : Cfg) (lv : Levels) : Prop :=
  ∀ b, wired c b = true → Levels.line lv (resolve c b) = .driven .high

section Emissions
variable {c : Cfg} {ms : List Emission} {lv : Levels}

theorem releaseAll_notMem_emissions : .releaseAll ∉ ms.flatMap (Emission.events c) := by
  intro he
  obtain ⟨m, -, hm⟩ := List.mem_flatMap.1 he
  cases m with
  | frame b bits => exact releaseAll_notMem_frameEvents hm
  | wait t => simp [Emission.events] at hm

/-- A frame brings its own chip-select back to high and leaves the other as it was. -/
theorem ChipSelectsHigh.emission {m : Emission} (hp : PinsApart c) (hm : m.toWired c) (h : ChipSelectsHigh c lv) :
    ChipSelectsHigh c ((m.events c).foldl Levels.after lv) := by
  cases m with
  | wait t => exact h
  | frame b bits =>
    intro b' hb'
    by_cases hbb : b' = b
    · subst hbb
      exact Levels.line_frame_cs
    · exact (Levels.line_frame_other (hp.cs_ne_wr hb') (hp.cs_ne_data hb') (hp.cs_ne_cs hb' hm hbb)).trans (h b' hb')

theorem ChipSelectsHigh.emissions (hp : PinsApart c) (hms : ∀ m ∈ ms, m.toWired c) (h : ChipSelectsHigh c lv) :
    ChipSelectsHigh c ((ms.flatMap (Emission.events c)).foldl Levels.after lv) := by
  rw [List.foldl_flatMap]
  exact List.foldlRecOn (motive := ChipSelectsHigh c) ms _ h fun _ h m hm => h.emission hp (hms m hm)

end Emissions

end Sys2Proof.Machine
end

section
/-! PROOFS. The pass of 30_encoding.md R68 over the events the block puts out: what closes a frame, and what leaves none
open. -/

namespace Sys2Proof.Machine

theorem scan_append (c : Cfg) (cs : Pin) (trace es : List Event) :
    scan c cs (trace ++ es) = es.foldl (Scan.step c cs) (scan c cs trace) := List.foldl_append

section Idle
variable {c : Cfg} {cs : Pin} {x : Scan}

/-- With no frame open, only an event that lowers the line opens one. -/
theorem Scan.step_idle {e : Event} (hx : x.current = none) (he : e ≠ .pinWrite cs .low) :
    Scan.step c cs x e = { x with levels := Levels.after x.levels e } := by
  cases e <;> simp_all [Scan.step]

theorem Scan.foldl_idle {es : List Event} (hx : x.current = none) (hes : .pinWrite cs .low ∉ es) :
    es.foldl (Scan.step c cs) x = { x with levels := es.foldl Levels.after x.levels } := by
  induction es generalizing x with
  | nil => rfl
  | cons e rest ih =>
    rw [List.mem_cons, not_or] at hes
    rw [List.foldl_cons, Scan.step_idle hx (Ne.symm hes.1), ih (by exact hx) hes.2, List.foldl_cons]

end Idle

section Sent
variable {c : Cfg} {cs : Pin} {lv : Levels} {closed : List (List Bool)}

/-- The three events of a bit add that bit to the open frame. -/
theorem Scan.foldl_bitEvents (hwd : c.wr ≠ c.data) (hw : cs ≠ c.wr) (hd : cs ≠ c.data) (b : Bool)
    (sent : List Bool) :
    (bitEvents c b).foldl (Scan.step c cs) { levels := lv, current := some sent, closed := closed } =
      { levels := (bitEvents c b).foldl Levels.after lv, current := some (sent ++ [b]), closed := closed } := by
  cases b <;>
    simp [bitEvents, Scan.step, Levels.after, Levels.line_set, lvl, hwd, hwd.symm, hw.symm, hd.symm]

theorem Scan.foldl_bits (hwd : c.wr ≠ c.data) (hw : cs ≠ c.wr) (hd : cs ≠ c.data) (bits sent : List Bool) :
    (bits.flatMap (bitEvents c)).foldl (Scan.step c cs) { levels := lv, current := some sent, closed := closed } =
      { levels := (bits.flatMap (bitEvents c)).foldl Levels.after lv, current := some (sent ++ bits),
        closed := closed } := by
  induction bits generalizing lv sent with
  | nil => simp
  | cons b rest ih =>
    rw [List.flatMap_cons, List.foldl_append, Scan.foldl_bitEvents hwd hw hd, ih, List.foldl_append,
      List.append_assoc, List.singleton_append]

/-- On its own line a frame opens, carries exactly its bits, and closes. -/
theorem Scan.foldl_frame_own (hwd : c.wr ≠ c.data) (hw : cs ≠ c.wr) (hd : cs ≠ c.data) (bits : List Bool)
    {x : Scan} (hx : x.current = none) :
    (frameEvents c cs bits).foldl (Scan.step c cs) x =
      { levels := (frameEvents c cs bits).foldl Levels.after x.levels, current := none,
        closed := x.closed ++ [bits] } := by
  have hopen : [Event.pinWrite c.wr .high, .pinWrite cs .low].foldl (Scan.step c cs) x =
      { levels := [Event.pinWrite c.wr .high, .pinWrite cs .low].foldl Levels.after x.levels, current := some [],
        closed := x.closed } := by
    simp [Scan.step, hx]
  rw [frameEvents, List.foldl_append, List.foldl_append, hopen, Scan.foldl_bits hwd hw hd]
  simp [Scan.step, List.foldl_append]

end Sent

section Lines
variable {c : Cfg} {b : Board} {x : Scan}

/-- On the line of another board a frame is not seen. -/
theorem Scan.foldl_frame_other {b' : Board} (hp : PinsApart c) (hb : wired c b = true) (hb' : wired c b' = true)
    (hne : b ≠ b') (bits : List Bool) (hx : x.current = none) :
    (frameEvents c (resolve c b') bits).foldl (Scan.step c (resolve c b)) x =
      { x with levels := (frameEvents c (resolve c b') bits).foldl Levels.after x.levels } :=
  Scan.foldl_idle hx fun he =>
    frameEvents_not_lowers (hp.cs_ne_wr hb) (hp.cs_ne_data hb) (hp.cs_ne_cs hb hb' hne) _ he (.inr rfl)

theorem Scan.current_emission {m : Emission} (hp : PinsApart c) (hb : wired c b = true) (hm : m.toWired c)
    (hx : x.current = none) : ((m.events c).foldl (Scan.step c (resolve c b)) x).current = none := by
  cases m with
  | wait t => exact hx
  | frame b' bits =>
    by_cases hne : b = b'
    · subst hne
      exact congrArg Scan.current
        (Scan.foldl_frame_own hp.wr_ne_data (hp.cs_ne_wr hb) (hp.cs_ne_data hb) bits hx)
    · exact (congrArg Scan.current (Scan.foldl_frame_other hp hb hm hne bits hx)).trans hx

/-- Between two emissions no frame is open. -/
theorem Scan.current_emissions {ms : List Emission} (hp : PinsApart c) (hb : wired c b = true)
    (hms : ∀ m ∈ ms, m.toWired c) (hx : x.current = none) :
    ((ms.flatMap (Emission.events c)).foldl (Scan.step c (resolve c b)) x).current = none := by
  rw [List.foldl_flatMap]
  exact List.foldlRecOn (motive := fun y : Scan => y.current = none) ms _ hx fun _ h m hm =>
    Scan.current_emission hp hb (hms m hm) h

end Lines

end Sys2Proof.Machine
end

section
/-! PROOFS. Every step keeps the invariants of 10_state.md R31: one lemma for each thing a request can do (`Effect`). -/

namespace Sys2Proof.Machine

/-- What a step can do: nothing when nothing is presented, else what the decoded instruction does. -/
theorem step_effect {s t : State} (h : step s = .next t) :
    t = s ∨ ∃ rest, configWf s.params s.cfg = true ∧ Effect { s with requests := rest } t := by
  cases hq : s.requests with
  | nil =>
    rw [step_of_no_request hq] at h
    cases h
    exact .inl rfl
  | cons x rest =>
    cases hd : decode s.params x with
    | ok i =>
      rw [step_of_decode_ok hq hd] at h
      exact .inr ⟨rest, exec_effect h⟩
    | error r =>
      rw [step_of_decode_error hq hd] at h
      cases h

section Effects
variable {s t : State}

/-- No invariant speaks of the request stream. -/
theorem Inv.requests (hi : Inv s) (rest : List Presented) : Inv { s with requests := rest } :=
  ⟨hi.levels_wf, hi.ram_wf, hi.levels_trace, hi.driven, hi.cs_high, hi.released_z, hi.lc_wired, hi.frames_closed⟩

theorem Inv.setLc {b : Board} (hi : Inv s) (hb : wired s.cfg b = true) (x : Lifecycle) : Inv (setLc b x s) where
  levels_wf := by simpa using hi.levels_wf
  ram_wf := by simpa using hi.ram_wf
  levels_trace := by simpa using hi.levels_trace
  driven := by simpa using hi.driven
  cs_high := by simpa using hi.cs_high
  released_z := by simpa using hi.released_z
  lc_wired := by
    intro b' h
    rw [setLc_lc] at h
    rw [setLc_cfg]
    split at h
    · next hbb => exact hbb ▸ hb
    · exact hi.lc_wired b' h
  frames_closed := by simpa using hi.frames_closed

/-- A report changes the trace alone. -/
theorem Inv.error (hi : Inv s) (c : ErrorCode) : Inv (emit [.report c] s) where
  levels_wf := hi.levels_wf
  ram_wf := hi.ram_wf
  levels_trace := by rw [emit_levels, emit_trace, levelsOf_append, ← hi.levels_trace]
  driven := hi.driven
  cs_high := hi.cs_high
  released_z := hi.released_z
  lc_wired := by simpa using hi.lc_wired
  frames_closed b hb := by
    rw [emit_cfg, emit_trace, scan_append, Scan.foldl_idle (hi.frames_closed b hb) (by simp)]
    exact hi.frames_closed b hb

/-- Frames and delays leave every wired chip-select high, keep WR and DATA driven, and close what they open. -/
theorem Inv.sends {ms : List Emission} (hp : PinsApart s.cfg) (ho : s.phase = .opened) (hi : Inv s)
    (hs : Sends ms s t) : Inv t where
  levels_wf := by
    rw [hs.levels]
    exact Levels.wf_foldl _ hi.levels_wf
  ram_wf := hs.ram_wf hi.ram_wf
  levels_trace := by rw [hs.levels, hs.trace, levelsOf_append, ← hi.levels_trace]
  driven := by
    rw [hs.levels, hs.cfg]
    exact fun _ p hpin => Levels.line_foldl_ne_z releaseAll_notMem_emissions (hi.driven ho p hpin)
  cs_high := by
    rw [hs.levels, hs.cfg, hs.params]
    exact fun _ hcs => ChipSelectsHigh.emissions hp hs.wired (hi.cs_high ho hcs)
  released_z h := absurd (hs.phase.trans ho) h
  lc_wired b := by
    rw [hs.lc, hs.cfg]
    exact hi.lc_wired b
  frames_closed := by
    rw [hs.cfg, hs.trace]
    intro b hb
    rw [scan_append]
    exact Scan.current_emissions hp hb hs.wired (hi.frames_closed b hb)

/-- OPEN drives WR, DATA and every wired chip-select (42_displaycontroller.md R100). -/
theorem Inv.opening (hp : PinsApart s.cfg) (hc : s.phase = .closed) (hi : Inv s) :
    Inv { emit (openEvents s.cfg s.params) s with phase := .opened } where
  levels_wf := Levels.wf_foldl _ hi.levels_wf
  ram_wf := hi.ram_wf
  levels_trace := by
    rw [emit_levels, emit_trace, levelsOf_append, ← hi.levels_trace]
  driven := by
    rintro - p (rfl | rfl)
    · exact Levels.line_foldl_driven releaseAll_notMem_openEvents (mem_openEvents.2 (.inl rfl)) rfl
    · exact Levels.line_foldl_driven releaseAll_notMem_openEvents (mem_openEvents.2 (.inr (.inl rfl))) rfl
  cs_high := by
    intro _ hcs b hb
    have hz : Levels.line s.levels (resolve s.cfg b) = .z := hi.released_z (by simp [hc]) _
    exact eq_driven_high
      (Levels.line_foldl_driven releaseAll_notMem_openEvents (mem_openEvents.2 (.inr (.inr ⟨b, hb, rfl⟩))) rfl)
      (Levels.line_foldl_ne_low (openEvents_not_lowers hp hcs hb) (by simp [hz]))
  released_z h := absurd rfl h
  lc_wired := hi.lc_wired
  frames_closed b hb := by
    have hx := hi.frames_closed b hb
    show (scan s.cfg (resolve s.cfg b) (s.trace ++ openEvents s.cfg s.params)).current = none
    rw [scan_append, Scan.foldl_idle hx pinWrite_notMem_openEvents]
    exact hx

/-- TEARDOWN leaves nothing driven (42_displaycontroller.md R107). -/
theorem Inv.closing (hi : Inv s) : Inv { emit [.releaseAll] s with phase := .released } where
  levels_wf := rfl
  ram_wf := hi.ram_wf
  levels_trace := by rw [emit_levels, emit_trace, levelsOf_append, ← hi.levels_trace]
  driven h := by cases h
  cs_high h := by cases h
  released_z _ _ := rfl
  lc_wired := hi.lc_wired
  frames_closed b hb := by
    have hx := hi.frames_closed b hb
    show (scan s.cfg (resolve s.cfg b) (s.trace ++ [.releaseAll])).current = none
    rw [scan_append, Scan.foldl_idle hx (by simp)]
    exact hx

theorem Inv.effect (hw : configWf s.params s.cfg = true) (hi : Inv s) (he : Effect s t) : Inv t := by
  have hp := pinsApart_of_configWf hw
  cases he with
  | idle _ => exact hi
  | opening hc => exact hi.opening hp hc
  | error _ c => exact hi.error c
  | sends ho ms hs => exact hi.sends hp ho hs
  | init ho b hb hs =>
    refine (hi.sends hp ho hs).setLc ?_ .enabled
    rwa [hs.cfg]
  | closing ho hs => exact (hi.sends hp ho hs).closing

end Effects

/-- Settles O9: each thing a request can do keeps the invariants. -/
theorem stepKeepsTheInvariants : Obligations.StepKeepsTheInvariants := by
  intro s t hi h
  obtain rfl | ⟨rest, hw, he⟩ := step_effect h
  · exact hi
  · exact Inv.effect (s := { s with requests := rest }) hw (hi.requests rest) he

end Sys2Proof.Machine
end

section
/-! PROOFS. At no point of the trace are both chip-selects low (10_state.md R31 (b)): a frame lowers one of them while
the other is high. -/

namespace Sys2Proof.Machine

/-- At no point of `es`, started from the levels `lv`, are both chip-selects low. -/
def KeepsApart (c : Cfg) (lv : Levels) (es : List Event) : Prop :=
  ∀ n, ¬ (Levels.line ((es.take n).foldl Levels.after lv) c.cs0 = .driven .low ∧
    Levels.line ((es.take n).foldl Levels.after lv) c.cs1 = .driven .low)

theorem neverBothLow_iff {s : State} : NeverBothLow s ↔
    (wired s.cfg .board0 = true → wired s.cfg .board1 = true → KeepsApart s.cfg [] s.trace) := Iff.rfl

section Apart
variable {c : Cfg} {lv : Levels} {es fs : List Event}

theorem KeepsApart.append (h : KeepsApart c lv es) (k : KeepsApart c (es.foldl Levels.after lv) fs) :
    KeepsApart c lv (es ++ fs) := by
  intro n
  rcases Nat.le_total n es.length with hn | hn
  · rw [List.take_append_of_le_length hn]
    exact h n
  · rw [List.take_append, List.take_of_length_le hn, List.foldl_append]
    exact k _

/-- Events that do not lower a chip-select which is not low. -/
theorem KeepsApart.of_not_lowers (b : Board) (h : Levels.line lv (resolve c b) ≠ .driven .low)
    (hes : ∀ e ∈ es, ¬ Lowers (resolve c b) e) : KeepsApart c lv es := by
  intro n hn
  have hb := Levels.line_foldl_ne_low (fun e he => hes e (List.mem_of_mem_take (i := n) he)) h
  cases b
  · exact hb hn.1
  · exact hb hn.2

/-- While the block sends to one board the other board's chip-select stays high. -/
theorem KeepsApart.emission {m : Emission} (hp : PinsApart c) (h0 : wired c .board0 = true)
    (h1 : wired c .board1 = true) (hm : m.toWired c) (h : ChipSelectsHigh c lv) : KeepsApart c lv (m.events c) := by
  cases m with
  | wait t => exact .of_not_lowers .board0 (by simp [h .board0 h0]) (by simp [Emission.events, Lowers])
  | frame b bits =>
    have other : ∀ b', wired c b' = true → b' ≠ b → KeepsApart c lv ((Emission.frame b bits).events c) :=
      fun b' hb' hne => .of_not_lowers b' (by simp [h b' hb'])
        (frameEvents_not_lowers (hp.cs_ne_wr hb') (hp.cs_ne_data hb') (hp.cs_ne_cs hb' hm hne))
    cases b with
    | board0 => exact other .board1 h1 (by decide)
    | board1 => exact other .board0 h0 (by decide)

theorem KeepsApart.emissions {ms : List Emission} (hp : PinsApart c) (h0 : wired c .board0 = true)
    (h1 : wired c .board1 = true) (hms : ∀ m ∈ ms, m.toWired c) (h : ChipSelectsHigh c lv) :
    KeepsApart c lv (ms.flatMap (Emission.events c)) := by
  induction ms generalizing lv with
  | nil => exact .of_not_lowers .board0 (by simp [h .board0 h0]) (by simp)
  | cons m rest ih =>
    rw [List.forall_mem_cons] at hms
    exact (KeepsApart.emission hp h0 h1 hms.1 h).append (ih hms.2 (h.emission hp hms.1))

end Apart

section Effects
variable {s t : State}

/-- Where the events `es` are put out and keep the chip-selects apart, the whole trace does. -/
theorem NeverBothLow.append {es : List Event} (hi : Inv s) (h : NeverBothLow s) (hcfg : t.cfg = s.cfg)
    (htrace : t.trace = s.trace ++ es)
    (hes : wired s.cfg .board0 = true → wired s.cfg .board1 = true → KeepsApart s.cfg s.levels es) :
    NeverBothLow t := by
  rw [neverBothLow_iff] at h ⊢
  rw [hcfg, htrace]
  intro h0 h1
  refine (h h0 h1).append ?_
  have hlv : s.trace.foldl Levels.after [] = s.levels := hi.levels_trace.symm
  rw [hlv]
  exact hes h0 h1

theorem NeverBothLow.sends {ms : List Emission} (hp : PinsApart s.cfg) (ho : s.phase = .opened) (hi : Inv s)
    (hcs : s.params.initCs = .high) (h : NeverBothLow s) (hs : Sends ms s t) : NeverBothLow t :=
  h.append hi hs.cfg hs.trace fun h0 h1 => .emissions hp h0 h1 hs.wired (hi.cs_high ho hcs)

theorem NeverBothLow.effect (hw : configWf s.params s.cfg = true) (hi : Inv s) (hcs : s.params.initCs = .high)
    (h : NeverBothLow s) (he : Effect s t) : NeverBothLow t := by
  have hp := pinsApart_of_configWf hw
  cases he with
  | idle _ => exact h
  | opening hc =>
    refine h.append hi rfl rfl fun h0 _ => .of_not_lowers .board0 ?_ (openEvents_not_lowers hp hcs h0)
    simp [hi.released_z (by simp [hc])]
  | error ho c =>
    exact h.append hi rfl rfl fun h0 _ =>
      .of_not_lowers .board0 (by simp [hi.cs_high ho hcs .board0 h0]) (by simp [Lowers])
  | sends ho ms hs => exact h.sends hp ho hi hcs hs
  | init ho b _ hs =>
    have hu := h.sends hp ho hi hcs hs
    simpa [NeverBothLow] using hu
  | @closing ho u hs =>
    have hu : Inv u := hi.sends hp ho hs
    refine (h.sends hp ho hi hcs hs).append hu rfl rfl fun h0 _ => .of_not_lowers .board0 ?_ (by simp [Lowers])
    simp [hu.cs_high (hs.phase.trans ho) (hs.params ▸ hcs) .board0 h0]

end Effects

/-- Settles O11: each thing a request can do keeps the chip-selects apart. -/
theorem stepNeverLowersBothChipSelects : Obligations.StepNeverLowersBothChipSelects := by
  intro s t hi hcs h hstep
  obtain rfl | ⟨rest, hw, he⟩ := step_effect hstep
  · exact h
  · exact NeverBothLow.effect (s := { s with requests := rest }) hw (hi.requests rest) hcs h he

end Sys2Proof.Machine
end

section
/-! PROOFS. A TRANSMIT to a wired board with a valid length, and the lines it leaves (10_state.md R27). -/

namespace Sys2Proof.Machine

theorem lengthOfField_eq_some {n : BitVec 5} (hn : n = 12 ∨ n = 14 ∨ n = 18) : lengthOfField n = some n.toNat := by
  obtain rfl | rfl | rfl := hn <;> rfl

/-- The last bit sent stands at the low end of the range (40_bitserializer.md R81). -/
theorem getLast?_sentBits (w : WireWord) {n : BitVec 5} (hn : n = 12 ∨ n = 14 ∨ n = 18) :
    (sentBits w n.toNat).getLast? = some (w.getLsbD (if n = 18 then 0 else if n = 14 then 2 else 4)) := by
  obtain rfl | rfl | rfl := hn <;> rfl

/-- TRANSMIT to the chip-select of a wired board with a valid length passes its validation (40_bitserializer.md R80). -/
theorem exec_transmit_wired {s : State} {b : Board} {n : BitVec 5} (hp : PinsApart s.cfg)
    (hb : wired s.cfg b = true) (hn : n = 12 ∨ n = 14 ∨ n = 18) (w : WireWord) :
    exec (.transmit w n (resolve s.cfg b)) s = serveOpened s (.next (transmit b w n.toNat s)) := by
  simp only [exec, execTransmit, resolve_ne_zero hb, if_false, boardOfPin_resolve hp hb, lengthOfField_eq_some hn]

/-- Settles O16: the lines are those a frame leaves. -/
theorem linesAfterTransmit : Obligations.LinesAfterTransmit := by
  intro s t b w n hb hn h
  have hp := pinsApart_of_configWf (exec_effect h).1
  rw [exec_transmit_wired hp hb hn] at h
  obtain ⟨-, -, ht⟩ := serveOpened_next h
  cases ht
  exact ⟨Levels.line_frame_wr (hp.cs_ne_wr hb), Levels.line_frame_cs,
    Levels.line_frame_data hp.wr_ne_data (hp.cs_ne_data hb) (getLast?_sentBits w hn),
    fun _ => Levels.line_frame_other⟩

end Sys2Proof.Machine
end

section
/-! PROOFS. What a request puts out (10_state.md R25, R26): it appends events, which name configured pins, and LEVEL
follows them. -/

namespace Sys2Proof.Machine

/-- The pin the event drives, if any, is WR, DATA or the chip-select of a wired board. -/
def NamesConfiguredPin (c : Cfg) (e : Event) : Prop :=
  ∀ p, eventPin e = some p → p = c.wr ∨ p = c.data ∨ ∃ b, wired c b = true ∧ p = resolve c b

theorem namesConfiguredPin_openEvents {c : Cfg} {p : Params} {e : Event} (he : e ∈ openEvents c p) :
    NamesConfiguredPin c e := by
  obtain rfl | rfl | ⟨b, hb, rfl⟩ := mem_openEvents.1 he <;> rintro q ⟨⟩
  · exact .inl rfl
  · exact .inr (.inl rfl)
  · exact .inr (.inr ⟨b, hb, rfl⟩)

theorem namesConfiguredPin_emissions {c : Cfg} {ms : List Emission} (hms : ∀ m ∈ ms, m.toWired c) {e : Event}
    (he : e ∈ ms.flatMap (Emission.events c)) : NamesConfiguredPin c e := by
  obtain ⟨m, hm, he⟩ := List.mem_flatMap.1 he
  have hb := hms m hm
  cases m with
  | wait t =>
    obtain rfl := List.mem_singleton.1 he
    rintro q ⟨⟩
  | frame b bits =>
    obtain ⟨q, l, rfl, hq⟩ := mem_frameEvents he
    rintro _ ⟨⟩
    exact hq.imp_right (Or.imp_right fun h => ⟨b, hb, h⟩)

theorem namesConfiguredPin_of_no_pin {c : Cfg} {e : Event} (he : eventPin e = none) : NamesConfiguredPin c e := by
  intro q hq
  rw [he] at hq
  cases hq

theorem PinsApart.ne_zero {c : Cfg} (hp : PinsApart c) {e : Event} (he : NamesConfiguredPin c e) {p : Pin}
    (h : eventPin e = some p) : p ≠ 0 := by
  obtain rfl | rfl | ⟨b, hb, rfl⟩ := he p h
  · exact hp.wr_ne_zero
  · exact hp.data_ne_zero
  · exact resolve_ne_zero hb

section Effects
variable {s t : State}

theorem Effect.inputs (he : Effect s t) : t.cfg = s.cfg ∧ t.params = s.params ∧ t.requests = s.requests := by
  cases he with
  | idle _ => exact ⟨rfl, rfl, rfl⟩
  | opening _ => exact ⟨rfl, rfl, rfl⟩
  | error _ c => exact ⟨rfl, rfl, rfl⟩
  | sends _ ms hs => exact ⟨hs.cfg, hs.params, hs.requests⟩
  | init _ b _ hs => simp [hs.cfg, hs.params, hs.requests]
  | closing _ hs => exact ⟨hs.cfg, hs.params, hs.requests⟩

/-- The events put out: the trace is the one before followed by them, and LEVEL follows them. -/
theorem Effect.events (he : Effect s t) : ∃ es, t.trace = s.trace ++ es ∧
    t.levels = es.foldl Levels.after s.levels ∧ ∀ e ∈ es, NamesConfiguredPin s.cfg e := by
  cases he with
  | idle _ => exact ⟨[], by simp, rfl, by simp⟩
  | opening _ => exact ⟨_, rfl, rfl, fun _ => namesConfiguredPin_openEvents⟩
  | error _ c => exact ⟨_, rfl, rfl, by simpa using namesConfiguredPin_of_no_pin rfl⟩
  | sends _ ms hs => exact ⟨_, hs.trace, hs.levels, fun _ => namesConfiguredPin_emissions hs.wired⟩
  | init _ b _ hs =>
    exact ⟨_, by rw [setLc_trace, hs.trace], by rw [setLc_levels, hs.levels],
      fun _ => namesConfiguredPin_emissions hs.wired⟩
  | closing _ hs =>
    refine ⟨(fillItems s.cfg 0x00).flatMap (Emission.events s.cfg) ++ [.releaseAll],
      by rw [emit_trace, hs.trace, List.append_assoc],
      by rw [emit_levels, hs.levels, List.foldl_append], fun e he => ?_⟩
    obtain he | he := List.mem_append.1 he
    · exact namesConfiguredPin_emissions hs.wired he
    · obtain rfl := List.mem_singleton.1 he
      exact namesConfiguredPin_of_no_pin rfl

end Effects

/-- Settles O45: the events are those of `Effect.events`, and no configured pin is 0. -/
theorem eventsNameConfiguredPinsOnly : Obligations.EventsNameConfiguredPinsOnly := by
  intro i s t es h htrace e he p hpin
  obtain ⟨hw, heff⟩ := exec_effect h
  obtain ⟨es', htrace', -, hnames⟩ := heff.events
  obtain rfl : es = es' := List.append_cancel_left (htrace.symm.trans htrace')
  exact ⟨(pinsApart_of_configWf hw).ne_zero (hnames e he) hpin, hnames e he p hpin⟩

end Sys2Proof.Machine
end

section
/-! PROOFS. The meaning of every instruction but OPEN, TEARDOWN and INIT of a wired board has one shape: served in
`PHASE = OPEN`, with a reply that the instruction, CFG and the parameters alone decide. -/

namespace Sys2Proof.Machine

/-- What an instruction comes to when it is served. -/
inductive Reply where
  | refusal (r : Refusal)
  | error (c : ErrorCode)
  | sends (ms : List Emission)

/-- The outcome is this reply, from the state `s`. -/
def Reply.Is (s : State) (o : Host.Outcome State Fault Refusal) : Reply → Prop
  | .refusal r => o = .refused r
  | .error c => o = .next (emit [.report c] s)
  | .sends ms => ∃ t, Sends ms s t ∧ o = .next t

/-- One reply serves the instruction from every state with these inputs. -/
def Plain (i : Instr) (c : Cfg) (p : Params) : Prop :=
  ∃ r : Reply, ∀ s : State, s.cfg = c → s.params = p → ∃ o, r.Is s o ∧ exec i s = serveOpened s o

section Forms
variable {i : Instr} {c : Cfg} {p : Params}

/-- The instruction is an operation that sends what the inputs decide. -/
theorem Plain.of_sends {op : State → State} (items : Cfg → Params → List Emission)
    (hs : ∀ s, Sends (items s.cfg s.params) s (op s))
    (he : ∀ s, s.cfg = c → s.params = p → exec i s = serveOpened s (.next (op s))) : Plain i c p := by
  refine ⟨.sends (items c p), ?_⟩
  rintro s rfl rfl
  exact ⟨_, ⟨_, hs s, rfl⟩, he s rfl rfl⟩

theorem Plain.of_error (code : ErrorCode)
    (he : ∀ s, s.cfg = c → s.params = p → exec i s = serveOpened s (.next (emit [.report code] s))) : Plain i c p :=
  ⟨.error code, fun s hc hp => ⟨_, rfl, he s hc hp⟩⟩

theorem Plain.of_refusal (r : Refusal)
    (he : ∀ s, s.cfg = c → s.params = p → exec i s = serveOpened s (.refused r)) : Plain i c p :=
  ⟨.refusal r, fun s hc hp => ⟨_, rfl, he s hc hp⟩⟩

end Forms

/-- A direct TRANSMIT after its validation: the frame goes out on a wired board's line. -/
theorem transmit_sends {s : State} {b : Board} (hb : wired s.cfg b = true) (w : WireWord) (n : Nat) :
    Sends (sendItems s.cfg b w n) s (transmit b w n s) := by
  have h := send_sends b w n s
  rwa [send, if_pos hb] at h

theorem wired_of_boardOfPin {c : Cfg} {cs : Pin} {b : Board} (hcs : cs ≠ 0) (h : boardOfPin c cs = some b) :
    wired c b = true := by
  unfold boardOfPin at h
  split at h
  · next he =>
    cases h
    simpa [wired, resolve, ← he] using hcs
  · split at h
    · next he =>
      cases h
      simpa [wired, resolve, ← he] using hcs
    · cases h

/-- The operation of SELFTEST (42_displaycontroller.md R104). -/
theorem selftest_sends (s : State) :
    Sends (fillItems s.cfg 0xFF ++ [.wait s.params.tSelftest] ++ fillItems s.cfg 0x00) s
      (fill 0x00 (emit [.delay s.params.tSelftest] (fill 0xFF s))) := by
  have hlit := (fill_sends 0xFF s).trans (emit_delay_sends s.params.tSelftest _)
  have hcleared := fill_sends 0x00 (emit [.delay s.params.tSelftest] (fill 0xFF s))
  rw [hlit.cfg] at hcleared
  exact hlit.trans hcleared

theorem plain_transmit (w : WireWord) (n : BitVec 5) (cs : Pin) (c : Cfg) (p : Params) :
    Plain (.transmit w n cs) c p := by
  by_cases hcs : cs = 0
  · exact .of_error .csUnconfigured fun s _ _ => by simp only [exec, execTransmit, hcs, if_true, raise_eq]
  cases hb : boardOfPin c cs with
  | none =>
    exact .of_refusal .foreignChipSelect fun s hc _ => by simp only [exec, execTransmit, hcs, if_false, hc, hb]
  | some b =>
    cases hn : lengthOfField n with
    | none =>
      exact .of_error .badLength fun s hc _ => by simp only [exec, execTransmit, hcs, if_false, hc, hb, hn, raise_eq]
    | some len =>
      have hwired := wired_of_boardOfPin hcs hb
      refine ⟨.sends (sendItems c b w len), ?_⟩
      rintro s rfl -
      exact ⟨_, ⟨_, transmit_sends hwired w len, rfl⟩, by simp only [exec, execTransmit, hcs, if_false, hb, hn]⟩

theorem plain_encCmd (sel : BitVec 2) (o : Byte) (c : Cfg) (p : Params) : Plain (.encCmd sel o) c p := by
  cases hb : boardOfSelector sel with
  | none => exact .of_error .badBoard fun s _ _ => by simp only [exec, execEncCmd, hb, raise_eq]
  | some b =>
    exact .of_sends (fun c _ => commandItems c b o) (sendCommand_sends b o)
      fun s _ _ => by simp only [exec, execEncCmd, hb]

theorem plain_rstring (text : List Nat) (start : Int) (c : Cfg) (p : Params) : Plain (.rstring text start) c p := by
  cases ht : textInRange p.font text with
  | false => exact .of_error .range fun s _ hp => by simp [exec, execRstring, hp, ht]
  | true =>
    exact .of_sends (fun c p => textItems c p text (start * 2)) (renderText_sends text (start * 2))
      fun s _ hp => by simp [exec, execRstring, hp, ht]

theorem plain_rscroll (text : List Nat) (speed : Rat) (cycles : Int) (c : Cfg) (p : Params) :
    Plain (.rscroll text speed cycles) c p := by
  by_cases ho : speed ≤ 0 ∨ cycles < 0
  · exact .of_refusal .scrollOperands fun s _ _ => by simp only [exec, execRscroll, ho, if_true]
  cases ht : textInRange p.font text with
  | false => exact .of_error .range fun s _ hp => by simp [exec, execRscroll, ho, hp, ht]
  | true =>
    exact .of_sends (fun c p => cyclesItems text speed c p cycles.toNat) (scrollCycles_sends text speed cycles.toNat)
      fun s _ hp => by simp [exec, execRscroll, ho, hp, ht]

theorem boardOfSelector_eq_some {sel : BitVec 2} {b : Board} (h : boardOfSelector sel = some b) :
    sel = BitVec.ofNat 2 (boardIndex b) := by
  revert sel b
  decide

/-- The four kinds of instruction. -/
theorem exec_kinds (i : Instr) (c : Cfg) (p : Params) : i = .openLines ∨ i = .teardown ∨
    (∃ b, i = .initBoard (BitVec.ofNat 2 (boardIndex b)) ∧ wired c b = true) ∨ Plain i c p := by
  have plain : Plain i c p → i = .openLines ∨ i = .teardown ∨
      (∃ b, i = .initBoard (BitVec.ofNat 2 (boardIndex b)) ∧ wired c b = true) ∨ Plain i c p :=
    fun h => .inr (.inr (.inr h))
  cases i with
  | cmd b o => exact plain (.of_sends (fun c _ => commandItems c b o) (sendCommand_sends b o) fun _ _ _ => rfl)
  | wrNib b a d => exact plain (.of_sends (fun c _ => sendItems c b _ 14) (send_sends b _ 14) fun _ _ _ => rfl)
  | wrByte b a d => exact plain (.of_sends (fun c _ => sendItems c b _ 18) (send_sends b _ 18) fun _ _ _ => rfl)
  | systemDisable b =>
    exact plain (.of_sends (fun c p => commandItems c b p.opcSystemDisable) (fun s => sendCommand_sends b _ s)
      fun _ _ _ => rfl)
  | setCommon8Nmos b =>
    exact plain (.of_sends (fun c p => commandItems c b p.opcSetCommon8Nmos) (fun s => sendCommand_sends b _ s)
      fun _ _ _ => rfl)
  | systemEnable b =>
    exact plain (.of_sends (fun c p => commandItems c b p.opcSystemEnable) (fun s => sendCommand_sends b _ s)
      fun _ _ _ => rfl)
  | ledOn b =>
    exact plain (.of_sends (fun c p => commandItems c b p.opcLedOn) (fun s => sendCommand_sends b _ s)
      fun _ _ _ => rfl)
  | pwm16Grayscale b =>
    exact plain (.of_sends (fun c p => commandItems c b p.opcPwm16Grayscale) (fun s => sendCommand_sends b _ s)
      fun _ _ _ => rfl)
  | transmit w n cs => exact plain (plain_transmit w n cs c p)
  | encCmd sel o => exact plain (plain_encCmd sel o c p)
  | encNib a d => exact plain (.of_sends (fun c _ => nibbleItems c a d) (encodeNibble_sends a d) fun _ _ _ => rfl)
  | encByte a d => exact plain (.of_sends (fun c _ => byteItems c a d) (encodeByte_sends a d) fun _ _ _ => rfl)
  | openLines => exact .inl rfl
  | initBoard sel =>
    cases hb : boardOfSelector sel with
    | none => exact plain (.of_error .badBoard fun s _ _ => by simp only [exec, execInit, hb, raise_eq])
    | some b =>
      cases hw : wired c b with
      | true => exact .inr (.inr (.inl ⟨b, by rw [boardOfSelector_eq_some hb], hw⟩))
      | false =>
        exact plain (.of_sends (fun _ _ => []) Sends.refl fun s hc _ => by simp [exec, execInit, hb, hc, hw])
  | clear => exact plain (.of_sends (fun c _ => fillItems c 0x00) (fill_sends 0x00) fun _ _ _ => rfl)
  | selftest =>
    exact plain (.of_sends (fun c p => fillItems c 0xFF ++ [.wait p.tSelftest] ++ fillItems c 0x00) selftest_sends
      fun _ _ _ => rfl)
  | wrcol a v => exact plain (.of_sends (fun c _ => columnItems c a v) (writeColumn_sends a v) fun _ _ _ => rfl)
  | wrhalf a v =>
    exact plain (.of_sends (fun c _ => halfColumnItems c a v) (writeHalfColumn_sends a v) fun _ _ _ => rfl)
  | teardown => exact .inr (.inl rfl)
  | rstring text start => exact plain (plain_rstring text start c p)
  | rscroll text speed cycles => exact plain (plain_rscroll text speed cycles c p)

/-- INIT of a wired board (42_displaycontroller.md R101). -/
theorem exec_init_wired {s : State} {b : Board} (hb : wired s.cfg b = true) :
    exec (.initBoard (BitVec.ofNat 2 (boardIndex b))) s = serveOpened s (.next (initialise b s)) := by
  have hsel : boardOfSelector (BitVec.ofNat 2 (boardIndex b)) = some b := by cases b <;> rfl
  simp only [exec, execInit, hsel, hb, if_true]

/-- A plain instruction that completes has sent an error or a list of emissions. -/
theorem Plain.next {i : Instr} {s t : State} (hi : Plain i s.cfg s.params) (h : exec i s = .next t) :
    s.phase = .opened ∧ ((∃ c, t = emit [.report c] s) ∨ ∃ ms, Sends ms s t) := by
  obtain ⟨r, hr⟩ := hi
  obtain ⟨o, ho, he⟩ := hr s rfl rfl
  obtain ⟨-, hopen, rfl⟩ := serveOpened_next (he.symm.trans h)
  refine ⟨hopen, ?_⟩
  cases r with
  | refusal r => cases ho
  | error c => cases ho; exact .inl ⟨c, rfl⟩
  | sends ms =>
    obtain ⟨u, hs, hu⟩ := ho
    cases hu
    exact .inr ⟨ms, hs⟩

/-- OPEN (42_displaycontroller.md R100). -/
theorem exec_openLines (s : State) : exec .openLines s =
    serve (s.phase == .closed) s (.next { emit (openEvents s.cfg s.params) s with phase := .opened }) := rfl

/-- TEARDOWN in `PHASE = OPEN` (42_displaycontroller.md R107). -/
theorem exec_teardown_opened {s : State} (h : s.phase = .opened) : exec .teardown s =
    serve true s (.next { emit [.releaseAll] (fill 0x00 s) with phase := .released }) := by
  simp only [exec, execTeardown, if_pos h]

/-- TEARDOWN in every other phase. -/
theorem exec_teardown_idle {s : State} (h : s.phase ≠ .opened) : exec .teardown s = serve true s (.next s) := by
  simp only [exec, execTeardown, if_neg h]

/-- The registers LC do not depend on PHASE. -/
theorem setPhase_lc (s : State) (ph : Phase) (b : Board) : ({ s with phase := ph } : State).lc b = s.lc b := by
  cases b <;> rfl

end Sys2Proof.Machine
end

section
/-! PROOFS. The whole-machine rules: no fault, what moves PHASE and LC, and what an instruction depends on. -/

namespace Sys2Proof.Machine

/-- Settles O41: no reason for a fault exists, and a request that completes only appends events. -/
theorem inputsStayAndTheTraceGrows : Obligations.InputsStayAndTheTraceGrows := by
  intro i s
  refine ⟨(fun f => nomatch f), fun t h => ?_⟩
  obtain ⟨-, heff⟩ := exec_effect h
  obtain ⟨hcfg, hparams, hrequests⟩ := heff.inputs
  obtain ⟨es, htrace, hlevels, -⟩ := heff.events
  exact ⟨hcfg, hparams, hrequests, es, htrace, hlevels⟩

/-- Settles O42: only OPEN and TEARDOWN move PHASE, only INIT of a wired board writes LC. -/
theorem phaseAndLifecycleMoveOnlySo : Obligations.PhaseAndLifecycleMoveOnlySo := by
  intro i s t h
  obtain rfl | rfl | ⟨b, rfl, hb⟩ | hplain := exec_kinds i s.cfg s.params
  · obtain ⟨-, hclosed, ht⟩ := serve_next ((exec_openLines s).symm.trans h)
    cases ht
    exact ⟨fun _ => .inl ⟨rfl, by simpa using hclosed, rfl⟩,
      fun b hne => absurd ((setPhase_lc _ .opened b).trans (emit_lc _ s b)) hne⟩
  · by_cases hopen : s.phase = .opened
    · obtain ⟨-, -, ht⟩ := serve_next ((exec_teardown_opened hopen).symm.trans h)
      obtain rfl := Host.Outcome.next.inj ht
      have hlc := fun b =>
        (setPhase_lc _ .released b).trans ((emit_lc [.releaseAll] _ b).trans ((fill_sends 0x00 s).lc b))
      exact ⟨fun _ => .inr ⟨rfl, hopen, rfl⟩, fun b hne => absurd (hlc b) hne⟩
    · obtain ⟨-, -, ht⟩ := serve_next ((exec_teardown_idle hopen).symm.trans h)
      cases ht
      exact ⟨fun hne => absurd rfl hne, fun b hne => absurd rfl hne⟩
  · rw [exec_init_wired hb] at h
    obtain ⟨-, -, ht⟩ := serveOpened_next h
    cases ht
    obtain ⟨u, hs, he⟩ := initialise_sends b s
    rw [he]
    refine ⟨fun hne => absurd (by rw [setLc_phase, hs.phase]) hne, fun b' hne => ?_⟩
    rw [setLc_lc, hs.lc] at hne ⊢
    split at hne
    · next hbb => exact ⟨by rw [hbb], if_pos hbb⟩
    · exact absurd rfl hne
  · obtain ⟨-, ⟨c, rfl⟩ | ⟨ms, hs⟩⟩ := hplain.next h
    · exact ⟨fun hne => absurd rfl hne, fun b hne => absurd (emit_lc _ _ b) hne⟩
    · exact ⟨fun hne => absurd hs.phase hne, fun b hne => absurd (hs.lc b) hne⟩

/-! ## Two states that agree in the inputs and in PHASE -/

/-- What two outcomes, from `s` and from `s'`, have in common when the request sees only the inputs and PHASE. -/
def SameOutput (s s' : State) (o o' : Host.Outcome State Fault Refusal) : Prop :=
  (∀ t, o = .next t → ∃ t' es, o' = .next t' ∧ t.trace = s.trace ++ es ∧ t'.trace = s'.trace ++ es ∧
    t'.phase = t.phase) ∧
  (∀ r, o = .refused r → o' = .refused r)

section Same
variable {s s' t t' : State}

theorem SameOutput.next (es : List Event) (ht : t.trace = s.trace ++ es) (ht' : t'.trace = s'.trace ++ es)
    (hp : t'.phase = t.phase) : SameOutput s s' (.next t) (.next t') := by
  refine ⟨?_, nofun⟩
  rintro _ ⟨⟩
  exact ⟨t', es, rfl, ht, ht', hp⟩

theorem SameOutput.refused (r : Refusal) : SameOutput s s' (.refused r) (.refused r) :=
  ⟨nofun, fun _ h => h⟩

theorem SameOutput.serve {takes : Bool} {k k' : Host.Outcome State Fault Refusal} (hc : s'.cfg = s.cfg)
    (hp : s'.params = s.params) (h : SameOutput s s' k k') :
    SameOutput s s' (serve takes s k) (serve takes s' k') := by
  unfold Machine.serve
  rw [hc, hp]
  split
  · split
    · exact h
    · exact .refused _
  · exact .refused _

theorem SameOutput.sends {ms : List Emission} (hc : s'.cfg = s.cfg) (hph : s'.phase = s.phase) (hs : Sends ms s t)
    (hs' : Sends ms s' t') : SameOutput s s' (.next t) (.next t') :=
  .next _ hs.trace (by rw [hs'.trace, hc]) (by rw [hs'.phase, hs.phase, hph])

/-- Each kind of instruction puts out what the inputs and PHASE decide. -/
theorem exec_sameOutput (i : Instr) (hc : s'.cfg = s.cfg) (hp : s'.params = s.params) (hph : s'.phase = s.phase) :
    SameOutput s s' (exec i s) (exec i s') := by
  obtain rfl | rfl | ⟨b, rfl, hb⟩ | ⟨r, hr⟩ := exec_kinds i s.cfg s.params
  · rw [exec_openLines, exec_openLines, hph]
    exact .serve hc hp (.next (openEvents s.cfg s.params) rfl (by rw [hc, hp]; rfl) rfl)
  · by_cases hopen : s.phase = .opened
    · rw [exec_teardown_opened hopen, exec_teardown_opened (hph.trans hopen)]
      have hs := fill_sends 0x00 s
      have hs' := fill_sends 0x00 s'
      rw [hc] at hs'
      refine .serve hc hp
        (.next ((fillItems s.cfg 0x00).flatMap (Emission.events s.cfg) ++ [.releaseAll]) ?_ ?_ rfl)
      · rw [emit_trace, hs.trace, List.append_assoc]
      · rw [emit_trace, hs'.trace, hc, List.append_assoc]
    · rw [exec_teardown_idle hopen, exec_teardown_idle (hph ▸ hopen)]
      exact .serve hc hp (.next [] (by simp) (by simp) hph)
  · rw [exec_init_wired hb, exec_init_wired (hc ▸ hb), serveOpened, serveOpened, hph]
    obtain ⟨u, hs, he⟩ := initialise_sends b s
    obtain ⟨u', hs', he'⟩ := initialise_sends b s'
    rw [hc, hp] at hs'
    rw [he, he']
    refine .serve hc hp (.next _ (by rw [setLc_trace, hs.trace]) (by rw [setLc_trace, hs'.trace, hc]) ?_)
    rw [setLc_phase, setLc_phase, hs'.phase, hs.phase, hph]
  · obtain ⟨o, ho, he⟩ := hr s rfl rfl
    obtain ⟨o', ho', he'⟩ := hr s' hc hp
    rw [he, he', serveOpened, serveOpened, hph]
    refine .serve hc hp ?_
    cases r with
    | refusal r => cases ho; cases ho'; exact .refused r
    | error c => cases ho; cases ho'; exact .next [.report c] rfl rfl hph
    | sends ms =>
      obtain ⟨t, hs, rfl⟩ := ho
      obtain ⟨t', hs', rfl⟩ := ho'
      exact .sends hc hph hs hs'

end Same

/-- Settles O40: the two outcomes have the same output. -/
theorem eventsDependOnInputsAndPhaseOnly : Obligations.EventsDependOnInputsAndPhaseOnly :=
  fun i _ _ => exec_sameOutput i

end Sys2Proof.Machine
end

section
/-! PROOFS. The reset state (10_state.md R30, 70_reset_and_hazards.md R150, R151). -/

namespace Sys2Proof.Machine

/-- Settles O7: every instruction but OPEN and TEARDOWN is served in `PHASE = OPEN` only. -/
theorem resetLeavesTheBlockClosed : Obligations.ResetLeavesTheBlockClosed := by
  refine ⟨rfl, rfl, rfl, fun _ => rfl, rfl, fun _ _ => rfl, fun i t h => ?_⟩
  obtain rfl | rfl | ⟨b, rfl, hb⟩ | hplain := exec_kinds i State.reset.cfg State.reset.params
  · exact .inl rfl
  · obtain ⟨-, -, ht⟩ := serve_next ((exec_teardown_idle (by decide)).symm.trans h)
    cases ht
    exact .inr ⟨rfl, rfl⟩
  · rw [exec_init_wired hb] at h
    obtain ⟨-, hopen, -⟩ := serveOpened_next h
    cases hopen
  · obtain ⟨hopen, -⟩ := hplain.next h
    cases hopen

theorem inv_reset : Inv State.reset where
  levels_wf := rfl
  ram_wf := rfl
  levels_trace := rfl
  driven h := by cases h
  cs_high h := by cases h
  released_z _ _ := rfl
  lc_wired b h := absurd (by cases b <;> rfl) h
  frames_closed _ _ := rfl

theorem ramIsFrames_reset : RamIsFrames State.reset := fun b _ => (ite_self (c := wired _ b = true) none).symm

theorem neverBothLow_reset : NeverBothLow State.reset := by
  intro _ _ n
  simp [State.reset, levelsOf]

/-- Settles O8: nothing is driven, no frame is open and no location is known at reset. -/
theorem invariantsHoldAtReset : Obligations.InvariantsHoldAtReset :=
  ⟨inv_reset, ramIsFrames_reset, neverBothLow_reset⟩

end Sys2Proof.Machine
end

section
/-! PROOFS. The ghost RAM and the frames on the chip-select lines (20_memory.md R46, R53; 30_encoding.md R68): what the
chip of a board receives is what the pass over the trace reads on its line. -/

namespace Sys2Proof.Machine

section Effects
variable {s t : State}

/-- Every effect is a list of emissions, and beside them events that write no pin. -/
theorem Effect.stores (he : Effect s t) : ∃ (ms : List Emission) (es : List Event),
    (∀ m ∈ ms, m.toWired s.cfg) ∧ t.ram = ms.foldl Emission.store s.ram ∧
    t.trace = s.trace ++ (ms.flatMap (Emission.events s.cfg) ++ es) ∧ ∀ p l, .pinWrite p l ∉ es := by
  cases he with
  | idle _ => exact ⟨[], [], by simp, rfl, by simp, by simp⟩
  | opening _ => exact ⟨[], _, by simp, rfl, rfl, fun _ _ => pinWrite_notMem_openEvents⟩
  | error _ c => exact ⟨[], [.report c], by simp, rfl, rfl, by simp⟩
  | sends _ ms hs => exact ⟨ms, [], hs.wired, hs.ram, by rw [hs.trace, List.append_nil], by simp⟩
  | init _ b _ hs =>
    exact ⟨_, [], hs.wired, by rw [setLc_ram, hs.ram], by rw [setLc_trace, hs.trace, List.append_nil], by simp⟩
  | closing _ hs =>
    exact ⟨_, [.releaseAll], hs.wired, hs.ram, by rw [emit_trace, hs.trace, List.append_assoc], by simp⟩

end Effects

/-- A frame to a board makes the same of two memories that read the same on that board. -/
theorem Memory.read_receive_congr {m m' : Memory} {b : Board} (h : ∀ a, m.read b a = m'.read b a)
    (bits : List Bool) (a : BitVec 6) : (m.receive b bits).read b a = (m'.receive b bits).read b a := by
  unfold Memory.receive
  split
  · simp [Memory.read_write, h]
  · unfold Memory.writeByte
    split <;> simp [Memory.read_write, Memory.read_forget, h]
  · simp [Memory.read_forget]
  · simp [Memory.read_forget]

/-- Emissions that hold no frame to a board leave its RAM as it was. -/
theorem Memory.read_stores_other {ms : List Emission} {b : Board} (m : Memory) (h : ∀ bits, .frame b bits ∉ ms)
    (a : BitVec 6) :
    (ms.foldl Emission.store m).read b a = m.read b a := by
  refine List.foldlRecOn (motive := fun m' : Memory => m'.read b a = m.read b a) ms _ rfl fun m' hm' e he => ?_
  cases e with
  | wait t => exact hm'
  | frame b' bits =>
    have hne : b ≠ b' := fun hb => h bits (hb ▸ he)
    exact (Memory.read_receive_other hne m' bits a).trans hm'

/-- What the pass of 30_encoding.md R68 has read so far on the line of `b` accounts for its RAM; no frame is open. -/
def Accounts (b : Board) (x : Scan) (m : Memory) : Prop :=
  x.current = none ∧ ∀ a, m.read b a = (ramOfFrames b x.closed).read b a

section Accounting
variable {c : Cfg} {b : Board} {x : Scan} {m : Memory}

theorem Accounts.idle {es : List Event} {cs : Pin} (h : Accounts b x m) (hes : .pinWrite cs .low ∉ es) :
    Accounts b (es.foldl (Scan.step c cs) x) m := by
  rw [Scan.foldl_idle h.1 hes]
  exact h

/-- A frame on the line of `b` is read by the pass and received by the chip; a frame on the other line is neither. -/
theorem Accounts.emission {e : Emission} (hp : PinsApart c) (hb : wired c b = true) (he : e.toWired c)
    (h : Accounts b x m) : Accounts b ((e.events c).foldl (Scan.step c (resolve c b)) x) (e.store m) := by
  cases e with
  | wait t => exact h.idle (by simp [Emission.events])
  | frame b' bits =>
    by_cases hne : b = b'
    · subst hne
      rw [Emission.events, Scan.foldl_frame_own hp.wr_ne_data (hp.cs_ne_wr hb) (hp.cs_ne_data hb) bits h.1]
      refine ⟨rfl, fun a => ?_⟩
      rw [ramOfFrames, List.foldl_append]
      exact Memory.read_receive_congr h.2 bits a
    · rw [Emission.events, Scan.foldl_frame_other hp hb he hne bits h.1]
      exact ⟨h.1, fun a => (Memory.read_receive_other hne m bits a).trans (h.2 a)⟩

theorem Accounts.emissions {ms : List Emission} (hp : PinsApart c) (hb : wired c b = true)
    (hms : ∀ e ∈ ms, e.toWired c) (h : Accounts b x m) :
    Accounts b ((ms.flatMap (Emission.events c)).foldl (Scan.step c (resolve c b)) x)
      (ms.foldl Emission.store m) := by
  induction ms generalizing x m with
  | nil => exact h
  | cons e rest ih =>
    obtain ⟨he, hrest⟩ := List.forall_mem_cons.1 hms
    rw [List.flatMap_cons, List.foldl_append, List.foldl_cons]
    exact ih hrest (h.emission hp hb he)

end Accounting

/-- Where the line of `b` is not lowered, or `b` is not wired, no frame reaches its chip. -/
theorem Effect.ram_of_no_frame {s t : State} {b : Board} {es : List Event} (he : Effect s t)
    (htrace : t.trace = s.trace ++ es)
    (h : wired s.cfg b = false ∨ .pinWrite (resolve s.cfg b) .low ∉ es) (a : BitVec 6) :
    t.ram.read b a = s.ram.read b a := by
  obtain ⟨ms, es', hms, hram, htrace', -⟩ := he.stores
  obtain rfl := List.append_cancel_left (htrace.symm.trans htrace')
  rw [hram]
  refine Memory.read_stores_other _ (fun bits hm => ?_) a
  have hb : wired s.cfg b = true := hms _ hm
  obtain hu | hlow := h
  · simp [hb] at hu
  · exact hlow (List.mem_append_left _ (List.mem_flatMap.2 ⟨_, hm, by simp [Emission.events, frameEvents]⟩))

/-- The chip of a wired board receives the frames that the pass reads on its line; an unwired board's receives none. -/
theorem RamIsFrames.effect {s t : State} (hw : configWf s.params s.cfg = true) (hi : Inv s) (h : RamIsFrames s)
    (he : Effect s t) : RamIsFrames t := by
  intro b a
  have hcfg := he.inputs.1
  rw [hcfg]
  cases hb : wired s.cfg b with
  | false =>
    obtain ⟨es, htrace, -⟩ := he.events
    simp [he.ram_of_no_frame htrace (.inl hb) a, h b a, hb]
  | true =>
    obtain ⟨ms, es, hms, hram, htrace, hes⟩ := he.stores
    have hs : Accounts b (scan s.cfg (resolve s.cfg b) s.trace) s.ram :=
      ⟨hi.frames_closed b hb, fun a => (h b a).trans (if_pos hb)⟩
    have ht := (hs.emissions (pinsApart_of_configWf hw) hb hms).idle (c := s.cfg) (hes (resolve s.cfg b) .low)
    rw [hram, if_pos rfl, frames, htrace, scan_append, List.foldl_append]
    exact ht.2 a

/-- Settles O10: each thing a request can do keeps the ghost RAM what the frames make of it. -/
theorem stepKeepsRamAsFramesSay : Obligations.StepKeepsRamAsFramesSay := by
  intro s t hi h hstep
  obtain rfl | ⟨rest, hw, he⟩ := step_effect hstep
  · exact h
  · exact RamIsFrames.effect (s := { s with requests := rest }) hw (hi.requests rest) h he

/-- Settles O37: without an event that lowers the line there is no frame for the chip to receive. -/
theorem ramChangesOnlyByItsOwnFrames : Obligations.RamChangesOnlyByItsOwnFrames :=
  fun _ _ _ _ _ hexec htrace h => (exec_effect hexec).2.ram_of_no_frame htrace h

end Sys2Proof.Machine
end

section
/-! PROOFS. The number a frame's bits stand for, and what the chip makes of the frames of the two data formats
(20_memory.md R47, R48). -/

namespace Sys2Proof.Machine

/-- Bits sent first weigh more. -/
theorem bitsValue_append (xs ys : List Bool) :
    bitsValue (xs ++ ys) = 2 ^ ys.length * bitsValue xs + bitsValue ys := by
  induction ys using List.reverseRecOn with
  | nil => simp [bitsValue]
  | append_singleton ys y ih =>
    simp only [bitsValue, ← List.append_assoc, List.foldl_append, List.foldl_cons, List.foldl_nil,
      List.length_append, List.length_singleton, Nat.pow_succ] at ih ⊢
    rw [ih]
    ring

/-- The low `n` bits of a number, most significant bit first. -/
theorem bitsValue_testBit (x n : Nat) :
    bitsValue ((List.range n).map (fun k => x.testBit (n - 1 - k))) = x % 2 ^ n := by
  induction n with
  | zero => simp [bitsValue, Nat.mod_one]
  | succ n ih =>
    have htail : ((List.range n).map Nat.succ).map (fun k => x.testBit (n + 1 - 1 - k)) =
        (List.range n).map (fun k => x.testBit (n - 1 - k)) := by
      simp [Function.comp_def, Nat.sub_sub, Nat.add_comm]
    have hhead : bitsValue [x.testBit n] = x / 2 ^ n % 2 := by
      simp [bitsValue, Nat.toNat_testBit]
    rw [List.range_succ_eq_map, List.map_cons, htail, ← List.singleton_append, bitsValue_append, ih]
    simp only [List.length_map, List.length_range, Nat.add_sub_cancel, Nat.sub_zero, hhead]
    rw [Nat.pow_succ, Nat.mod_mul, Nat.add_comm]

/-- A field sent from its highest bit stands for its own number. -/
theorem bitsValue_getLsbD {n : Nat} (x : BitVec n) :
    bitsValue ((List.range n).map (fun k => x.getLsbD (n - 1 - k))) = x.toNat :=
  (bitsValue_testBit x.toNat n).trans (Nat.mod_eq_of_lt x.isLt)

theorem nibbleFrame_eq (a : BitVec 6) (d : Nibble) : nibbleFrame a d = 0x2800 + 2 ^ 4 * a.toNat + d.toNat := by
  have ha := a.isLt
  rw [nibbleFrame, Nat.or_assoc, ← Nat.shiftLeft_add_eq_or_of_lt d.isLt, ← Nat.shiftLeft_add_eq_or_of_lt (by omega)]
  omega

theorem byteFrame_eq (a : BitVec 6) (d : Byte) : byteFrame a d = 0x28000 + 2 ^ 8 * a.toNat + d.toNat := by
  have ha := a.isLt
  rw [byteFrame, Nat.or_assoc, ← Nat.shiftLeft_add_eq_or_of_lt d.isLt, ← Nat.shiftLeft_add_eq_or_of_lt (by omega)]
  omega

theorem bitsValue_nibbleBits (a : BitVec 6) (d : Nibble) : bitsValue (nibbleBits a d) = nibbleFrame a d := by
  have hid : bitsValue [true, false, true, false] = 10 := rfl
  rw [nibbleBits, bitsValue_append, bitsValue_append, hid, bitsValue_getLsbD a, bitsValue_getLsbD d, nibbleFrame_eq]
  simp only [List.length_map, List.length_range]
  omega

theorem bitsValue_byteBits (a : BitVec 6) (d : Byte) : bitsValue (byteBits a d) = byteFrame a d := by
  have hid : bitsValue [true, false, true, false] = 10 := rfl
  rw [byteBits, bitsValue_append, bitsValue_append, hid, bitsValue_getLsbD a, bitsValue_getLsbD d, byteFrame_eq]
  simp only [List.length_map, List.length_range]
  omega

theorem decodeFrame_nibbleFrame (a : BitVec 6) (d : Nibble) :
    decodeFrame 14 (nibbleFrame a d) = some (.nibble a d) := by
  have hcmd : rowCmd.fits 14 (nibbleFrame a d) = false := rfl
  have haddr : BitVec.ofNat 6 (nibbleFrame a d >>> 4) = a := by
    rw [nibbleFrame_eq]; bv_omega
  have hdata : BitVec.ofNat 4 (nibbleFrame a d) = d := by
    rw [nibbleFrame_eq]; bv_omega
  simp [decodeFrame, hcmd, Laws.RowMatch.nibbleFrame_fits, haddr, hdata]

theorem decodeFrame_byteFrame (a : BitVec 6) (d : Byte) :
    decodeFrame 18 (byteFrame a d) = some (.byte a d) := by
  have hcmd : rowCmd.fits 18 (byteFrame a d) = false := rfl
  have hnib : rowNib.fits 18 (byteFrame a d) = false := rfl
  have haddr : BitVec.ofNat 6 (byteFrame a d >>> 8) = a := by
    rw [byteFrame_eq]; bv_omega
  have hdata : BitVec.ofNat 8 (byteFrame a d) = d := by
    rw [byteFrame_eq]; bv_omega
  simp [decodeFrame, hcmd, hnib, Laws.RowMatch.byteFrame_fits, haddr, hdata]

/-- A NIB14 frame is a nibble write (20_memory.md R47). -/
theorem Memory.receive_nibbleBits (m : Memory) (b : Board) (a : BitVec 6) (d : Nibble) :
    m.receive b (nibbleBits a d) = m.write b a d := by
  have hlen : (nibbleBits a d).length = 14 := rfl
  simp only [Memory.receive, hlen, bitsValue_nibbleBits, decodeFrame_nibbleFrame]

/-- A BYTE18 frame is a byte write (20_memory.md R48). -/
theorem Memory.receive_byteBits (m : Memory) (b : Board) (a : BitVec 6) (d : Byte) :
    m.receive b (byteBits a d) = m.writeByte b a d := by
  have hlen : (byteBits a d).length = 18 := rfl
  simp only [Memory.receive, hlen, bitsValue_byteBits, decodeFrame_byteFrame]

/-- The two locations a byte write stores; at chip address 63 every other location of the chip is unspecified (U5,
log 16). -/
theorem Memory.read_writeByte (m : Memory) (b b' : Board) (a a' : BitVec 6) (d : Byte) :
    (m.writeByte b a d).read b' a' =
      if b' = b then
        if a' = a then some (d.extractLsb' 4 4)
        else if a = 63 then none
        else if a' = a + 1 then some (d.extractLsb' 0 4)
        else m.read b' a'
      else m.read b' a' := by
  by_cases hb : b' = b
  · by_cases ha : a = 63#6
    · subst ha
      simp [Memory.writeByte, Memory.read_write, Memory.read_forget, hb]
    · have hlt : a.toNat < 63 := by bv_omega
      by_cases haa : a' = a <;> simp [Memory.writeByte, Memory.read_write, hb, ha, hlt, haa]
  · unfold Memory.writeByte
    split <;> simp [Memory.read_write, Memory.read_forget, hb]

/-! ## The words the encoders send (30_encoding.md R63, R64): the bits agree position by position -/

theorem sentBits_nibbleWord (a : Byte) (d : Nibble) : sentBits (nibbleWord a d) 14 = nibbleBits (a.setWidth 6) d := by
  have hpos : positions 14 = [15, 14, 13, 12, 11, 10, 9, 8, 7, 6, 5, 4, 3, 2] := rfl
  simp [sentBits, hpos, nibbleWord, nibbleBits, Config.dataId, Config.addrMask, Config.nibMask, List.range_succ]

theorem sentBits_byteWord (a : Byte) (d : Byte) : sentBits (byteWord a d) 18 = byteBits (a.setWidth 6) d := by
  have hpos : positions 18 = [17, 16, 15, 14, 13, 12, 11, 10, 9, 8, 7, 6, 5, 4, 3, 2, 1, 0] := rfl
  simp [sentBits, hpos, byteWord, byteBits, Config.dataId, Config.addrMask, List.range_succ]

end Sys2Proof.Machine
end

section
/-! PROOFS. A memory in canonical form is determined by what its locations read, so a frame received twice leaves what
it left the first time. -/

namespace Sys2Proof.Machine

/-- In a table with rising keys the entries are what `get` finds. -/
theorem Table.mem_iff_get {α : Type} {t : List (Nat × α)} (h : Table.wf t = true) {e : Nat × α} :
    e ∈ t ↔ Table.get t e.1 = some e.2 := by
  simp only [Table.wf, decide_eq_true_eq] at h
  induction t with
  | nil => simp
  | cons x rest ih =>
    simp only [List.map_cons, List.pairwise_cons] at h
    obtain ⟨hlt, hrest⟩ := h
    rw [List.mem_cons, Table.get]
    by_cases hk : e.1 = x.1
    · have hnotMem : e ∉ rest := fun he => (hlt _ (List.mem_map_of_mem he)).ne' hk
      simp [hk, hnotMem, Prod.ext_iff, eq_comm]
    · simp [hk, ih hrest, Prod.ext_iff]

theorem Table.ext {α : Type} {t t' : List (Nat × α)} (h : Table.wf t = true) (h' : Table.wf t' = true)
    (hget : ∀ k, Table.get t k = Table.get t' k) : t = t' := by
  have hmem : ∀ e, e ∈ t ↔ e ∈ t' := fun e => by rw [Table.mem_iff_get h, Table.mem_iff_get h', hget]
  simp only [Table.wf, decide_eq_true_eq, List.pairwise_map] at h h'
  have hnodup : ∀ {l : List (Nat × α)}, l.Pairwise (fun e e' => e.1 < e'.1) → l.Nodup :=
    fun hl => hl.imp fun hlt heq => (heq ▸ hlt).false
  exact ((List.perm_ext_iff_of_nodup (hnodup h) (hnodup h')).2 hmem).eq_of_pairwise
    (fun _ _ _ _ hlt hgt => absurd hgt hlt.asymm) h h'

/-- The 128 keys are the locations of the two chips. -/
theorem exists_location {k : Nat} (hk : k < 128) : ∃ b a, location b a = k := by
  by_cases h : k < 64
  · exact ⟨.board0, BitVec.ofNat 6 k, by simp only [location, boardIndex, BitVec.toNat_ofNat]; omega⟩
  · exact ⟨.board1, BitVec.ofNat 6 (k - 64), by simp only [location, boardIndex, BitVec.toNat_ofNat]; omega⟩

theorem Memory.table_wf {m : Memory} (h : Memory.wf m = true) : Table.wf m = true :=
  (Bool.and_eq_true_iff.1 h).1

/-- Beyond its 128 locations a memory holds nothing. -/
theorem Memory.get_eq_none {m : Memory} (h : Memory.wf m = true) {k : Nat} (hk : ¬ k < 128) :
    Table.get m k = none := by
  refine Option.eq_none_iff_forall_ne_some.2 fun v hv => hk ?_
  have hmem : (k, v) ∈ m := (Table.mem_iff_get (Memory.table_wf h)).2 hv
  simp only [Memory.wf, Bool.and_eq_true, List.all_eq_true, decide_eq_true_eq] at h
  exact h.2 _ hmem

theorem Memory.ext {m m' : Memory} (h : Memory.wf m = true) (h' : Memory.wf m' = true)
    (hread : ∀ b a, m.read b a = m'.read b a) : m = m' := by
  refine Table.ext (Memory.table_wf h) (Memory.table_wf h') fun k => ?_
  by_cases hk : k < 128
  · obtain ⟨b, a, rfl⟩ := exists_location hk
    exact hread b a
  · rw [Memory.get_eq_none h hk, Memory.get_eq_none h' hk]

/-- A frame received twice leaves what it left the first time (20_memory.md R51). -/
theorem Memory.receive_receive {m : Memory} (h : Memory.wf m = true) (b : Board) (bits : List Bool) :
    (m.receive b bits).receive b bits = m.receive b bits := by
  have hw := Memory.wf_receive h b bits
  refine Memory.ext (Memory.wf_receive hw b bits) hw fun b' a' => ?_
  unfold Memory.receive
  split
  · simp only [Memory.read_write]
    split <;> rfl
  · simp only [Memory.read_writeByte]
    split_ifs <;> rfl
  · simp only [Memory.read_forget]
    split <;> rfl
  · simp only [Memory.read_forget]
    split <;> rfl

end Sys2Proof.Machine
end

section
/-! PROOFS. The routing of the two data requests (20_memory.md R41, R42), what they put out, and what they store. -/

namespace Sys2Proof.Machine

section Routing
variable {a : Byte} {s t : State}

/-- Every address routes a nibble to one board. -/
theorem encodeNibble_eq_send (a : Byte) (d : Nibble) (s : State) :
    encodeNibble a d s = send (routedBoard a.toNat) (nibbleWord a d) 14 s := by
  have ha := a.isLt
  by_cases h : a.toNat ≤ 0x3F
  · have h1 : ¬ 0x40 ≤ a.toNat := by omega
    simp [encodeNibble, routesBoard0, nibbleRoutesBoard1, routedBoard, Config.b0Lo, Config.b0Hi, Config.b1nLo, h, h1]
  · have h1 : 0x40 ≤ a.toNat ∧ a.toNat ≤ 0xFF := by omega
    simp [encodeNibble, routesBoard0, nibbleRoutesBoard1, routedBoard, Config.b0Hi, Config.b1nLo, Config.b1nHi, h, h1]

/-- An address of the lower half routes a byte to one board. -/
theorem encodeByte_eq_send (v : Byte) (s : State) (ha : a.toNat ≤ 0x7F) :
    encodeByte a v s = send (routedBoard a.toNat) (byteWord a v) 18 s := by
  by_cases h : a.toNat ≤ 0x3F
  · have h1 : ¬ 0x40 ≤ a.toNat := by omega
    simp [encodeByte, routesBoard0, byteRoutesBoard1, routedBoard, Config.b0Lo, Config.b0Hi, Config.b1bLo, h, h1]
  · have h1 : 0x40 ≤ a.toNat := by omega
    simp [encodeByte, routesBoard0, byteRoutesBoard1, routedBoard, Config.b0Hi, Config.b1bLo, Config.b1bHi, h, h1, ha]

/-- An address of the upper half routes a byte to no board. -/
theorem encodeByte_eq_self (v : Byte) (s : State) (ha : 0x80 ≤ a.toNat) : encodeByte a v s = s := by
  have h0 : ¬ a.toNat ≤ 0x3F := by omega
  have h1 : ¬ a.toNat ≤ 0x7F := by omega
  simp [encodeByte, routesBoard0, byteRoutesBoard1, Config.b0Hi, Config.b1bHi, h0, h1]

/-- The column writes hand an address of 0 to 255 to the encoder (42_displaycontroller.md R105, R106). -/
theorem writeHalfColumn_toNat (a : Byte) (d : Nibble) (s : State) :
    writeHalfColumn a.toNat d s = encodeNibble a d s := by
  have ha : addressInRange a.toNat = true := by have := a.isLt; simp [addressInRange]; omega
  rw [writeHalfColumn, if_pos ha, BitVec.ofInt_natCast, BitVec.ofNat_toNat, BitVec.setWidth_eq]

theorem writeColumn_toNat (a v : Byte) (s : State) : writeColumn a.toNat v s = encodeByte a v s := by
  have ha : addressInRange a.toNat = true := by have := a.isLt; simp [addressInRange]; omega
  rw [writeColumn, if_pos ha, BitVec.ofInt_natCast, BitVec.ofNat_toNat, BitVec.setWidth_eq]

theorem routedBoard_of_le {n : Nat} (h : n ≤ 0x3F) : routedBoard n = .board0 := if_pos h

theorem routedBoard_of_ge {n : Nat} (h : 0x40 ≤ n) : routedBoard n = .board1 := if_neg (by omega)

end Routing

section Sending
variable {s t : State} {b : Board} {w w' : WireWord} {n : Nat}

theorem Sends.puts {ms : List Emission} (h : Sends ms s t) : Puts (ms.flatMap (Emission.events s.cfg)) s t :=
  ⟨h.cfg, h.params, h.requests, h.phase, h.lc0, h.lc1, h.trace, h.levels⟩

/-- `send` puts out the frame of its word's bits (41_wordencoder.md R94). -/
theorem send_puts (b : Board) (w : WireWord) (n : Nat) (s : State) :
    Puts (sentTo s.cfg b (sentBits w n)) s (send b w n s) := by
  have hitems : sentTo s.cfg b (sentBits w n) = (sendItems s.cfg b w n).flatMap (Emission.events s.cfg) := by
    unfold sentTo sendItems
    split <;> simp [Emission.events]
  rw [hitems]
  exact (send_sends b w n s).puts

theorem send_ram (hb : wired s.cfg b = true) : (send b w n s).ram = s.ram.receive b (sentBits w n) := by
  rw [send, if_pos hb, transmit_ram]

/-- `send` sees a word through its bits alone. -/
theorem send_congr (h : sentBits w n = sentBits w' n) (s : State) : send b w n s = send b w' n s := by
  unfold send transmit
  rw [h]

/-- A word sent twice leaves the RAM as the first time. -/
theorem send_send_ram (hw : Memory.wf s.ram = true) : (send b w n (send b w n s)).ram = (send b w n s).ram := by
  have hcfg := (send_sends b w n s).cfg
  cases hb : wired s.cfg b with
  | true =>
    have hb' : wired (send b w n s).cfg b = true := hcfg ▸ hb
    rw [send_ram hb', send_ram hb, Memory.receive_receive hw]
  | false => simp [send, hb]

end Sending

/-! ## The data requests and the other forms of the same frame -/

section Forms
variable {i : Instr} {a : Byte} {s : State}

theorem exec_encNib (a : Byte) (d : Nibble) (s : State) : exec (.encNib a d) s =
    serveOpened s (.next (send (routedBoard a.toNat) (nibbleWord a d) 14 s)) := by
  rw [← encodeNibble_eq_send]
  rfl

theorem exec_encByte (v : Byte) (s : State) (ha : a.toNat ≤ 0x7F) : exec (.encByte a v) s =
    serveOpened s (.next (send (routedBoard a.toNat) (byteWord a v) 18 s)) := by
  rw [← encodeByte_eq_send v s ha]
  rfl

theorem exec_encByte_dropped (v : Byte) (s : State) (ha : 0x80 ≤ a.toNat) :
    exec (.encByte a v) s = serveOpened s (.next s) :=
  congrArg (fun t => serveOpened s (.next t)) (encodeByte_eq_self v s ha)

/-- ENC_NIB, WRHALF and the frame WR_NIB send the same frame to the same board. -/
theorem exec_nibbleWrite {d : Nibble} (hi : i = .encNib a d ∨ i = .wrhalf a.toNat d ∨
      i = .wrNib (routedBoard a.toNat) (a.setWidth 6) d) :
    exec i s = serveOpened s (.next (send (routedBoard a.toNat) (nibbleWord a d) 14 s)) := by
  obtain rfl | rfl | rfl := hi
  · exact exec_encNib a d s
  · rw [← encodeNibble_eq_send, ← writeHalfColumn_toNat]
    rfl
  · have hbits : sentBits (nibbleWord ((a.setWidth 6).setWidth 8) d) 14 = sentBits (nibbleWord a d) 14 := by
      rw [sentBits_nibbleWord, sentBits_nibbleWord, BitVec.setWidth_setWidth_of_le _ (by decide),
        BitVec.setWidth_eq]
    rw [← send_congr hbits]
    rfl

/-- ENC_BYTE, WRCOL and the frame WR_BYTE send the same frame to the same board. -/
theorem exec_byteWrite {v : Byte} (ha : a.toNat ≤ 0x7F) (hi : i = .encByte a v ∨ i = .wrcol a.toNat v ∨
      i = .wrByte (routedBoard a.toNat) (a.setWidth 6) v) :
    exec i s = serveOpened s (.next (send (routedBoard a.toNat) (byteWord a v) 18 s)) := by
  obtain rfl | rfl | rfl := hi
  · exact exec_encByte v s ha
  · rw [← encodeByte_eq_send v s ha, ← writeColumn_toNat]
    rfl
  · have hbits : sentBits (byteWord ((a.setWidth 6).setWidth 8) v) 18 = sentBits (byteWord a v) 18 := by
      rw [sentBits_byteWord, sentBits_byteWord, BitVec.setWidth_setWidth_of_le _ (by decide),
        BitVec.setWidth_eq]
    rw [← send_congr hbits]
    rfl

end Forms

/-- In a ready state a request that is served gives its outcome. -/
theorem Ready.serveOpened {s : State} (h : Ready s) (k : Host.Outcome State Fault Refusal) : serveOpened s k = k :=
  serveOpened_ready h.1 h.2 k

/-- Settles O18: the frame goes to the one board the address routes to. -/
theorem encNibRoutesEveryAddress : Obligations.EncNibRoutesEveryAddress := by
  intro s a d hr
  have hexec := (exec_encNib a d s).trans (hr.serveOpened _)
  have hputs := send_puts (routedBoard a.toNat) (nibbleWord a d) 14 s
  rw [sentBits_nibbleWord] at hputs
  exact ⟨fun ha => ⟨_, hexec, routedBoard_of_le ha ▸ hputs⟩,
    fun ha => ⟨_, hexec, routedBoard_of_ge ha ▸ hputs⟩⟩

/-- Settles O19: in the lower half the frame goes to the one board the address routes to. -/
theorem encByteRoutesTheLowerHalf : Obligations.EncByteRoutesTheLowerHalf := by
  intro s a v hr
  have hputs := send_puts (routedBoard a.toNat) (byteWord a v) 18 s
  rw [sentBits_byteWord] at hputs
  have hexec := fun ha : a.toNat ≤ 0x7F => (exec_encByte v s ha).trans (hr.serveOpened _)
  exact ⟨fun ha => ⟨_, hexec (by omega), routedBoard_of_le ha ▸ hputs⟩,
    fun ha hle => ⟨_, hexec hle, routedBoard_of_ge ha ▸ hputs⟩,
    fun ha => (exec_encByte_dropped v s ha).trans (hr.serveOpened _)⟩

/-- Settles O34: the three forms send one NIB14 frame, which the chip stores. -/
theorem nibbleWriteStoresOneLocation : Obligations.NibbleWriteStoresOneLocation := by
  intro s a d hr hb _ i hi
  refine ⟨_, (exec_nibbleWrite hi).trans (hr.serveOpened _), fun b' a' => ?_⟩
  rw [send_ram hb, sentBits_nibbleWord, Memory.receive_nibbleBits, Memory.read_write]

/-- Settles O35: the three forms send one BYTE18 frame, which the chip stores. -/
theorem byteWriteStoresTwoLocations : Obligations.ByteWriteStoresTwoLocations := by
  intro s a v hr ha hb _ i hi
  refine ⟨_, (exec_byteWrite ha hi).trans (hr.serveOpened _), fun b' a' => ?_⟩
  rw [send_ram hb, sentBits_byteWord, Memory.receive_byteBits, Memory.read_writeByte]

/-- An operation that is served in `PHASE = OPEN`, keeps the inputs and PHASE, and stores the same when repeated. -/
theorem exec_repeated {i : Instr} {op : State → State} {s t : State}
    (hexec : ∀ s, exec i s = serveOpened s (.next (op s))) (hputs : ∃ es, Puts es s (op s))
    (hram : (op (op s)).ram = (op s).ram) (h : exec i s = .next t) :
    ∃ u, exec i t = .next u ∧ u.ram = t.ram := by
  obtain ⟨hw, ho, ht⟩ := serveOpened_next ((hexec s).symm.trans h)
  obtain rfl := Host.Outcome.next.inj ht
  obtain ⟨es, hp⟩ := hputs
  refine ⟨_, (hexec _).trans (serveOpened_ready ?_ (hp.phase.trans ho) _), hram⟩
  rw [hp.cfg, hp.params]
  exact hw

/-- Settles O38: a repeated request sends the same frame, and a chip that receives a frame twice holds what it held
after the first. -/
theorem writesAreIdempotentOnRam : Obligations.WritesAreIdempotentOnRam := by
  intro s t a d v hw
  refine ⟨exec_repeated (exec_encNib a d) ⟨_, send_puts _ _ _ s⟩ (send_send_ram hw), fun h => ?_⟩
  by_cases ha : a.toNat ≤ 0x7F
  · exact exec_repeated (fun s => exec_encByte v s ha) ⟨_, send_puts _ _ _ s⟩ (send_send_ram hw) h
  · have hexec := fun s => exec_encByte_dropped v s (by omega : 0x80 ≤ a.toNat)
    exact exec_repeated (op := id) hexec ⟨[], (Sends.refl s).puts⟩ rfl h

end Sys2Proof.Machine
end

section
/-! PROOFS. No operation reads the ghost RAM (20_memory.md R44): from a state with another RAM each kind of instruction
comes to the same outcome but for the RAM. -/

namespace Sys2Proof.Machine

/-- `u` is `t` but for the RAM. -/
def EqButRam (t u : State) : Prop := ∃ m, u = { t with ram := m }

/-- The outcome `o'` is `o` but for the RAM of the next state. -/
def SameButRam (o o' : Host.Outcome State Fault Refusal) : Prop :=
  (∀ t, o = .next t → ∃ u, o' = .next u ∧ { u with ram := t.ram } = t) ∧
  (∀ r, o = .refused r → o' = .refused r)

section Same
variable {s t u : State} {m : Memory}

theorem SameButRam.next (h : EqButRam t u) : SameButRam (.next t) (.next u) := by
  obtain ⟨m, rfl⟩ := h
  refine ⟨?_, nofun⟩
  rintro _ ⟨⟩
  exact ⟨_, rfl, rfl⟩

theorem SameButRam.refused (r : Refusal) : SameButRam (.refused r) (.refused r) :=
  ⟨fun _ h => (by cases h), fun _ h => h⟩

theorem SameButRam.serve {takes : Bool} {k k' : Host.Outcome State Fault Refusal} (h : SameButRam k k') :
    SameButRam (serve takes s k) (serve takes { s with ram := m } k') := by
  unfold Machine.serve
  split
  · split
    · exact h
    · exact .refused _
  · exact .refused _

/-- The same emissions from two states that differ in the RAM. -/
theorem Sends.eqButRam {ms : List Emission} (h : Sends ms s t) (k : Sends ms { s with ram := m } u) :
    EqButRam t u := by
  obtain ⟨hcfg, hparams, hphase, hlc0, hlc1, hrequests, htrace, hlevels, -, -⟩ := h
  obtain ⟨kcfg, kparams, kphase, klc0, klc1, krequests, ktrace, klevels, -, -⟩ := k
  refine ⟨u.ram, ?_⟩
  cases t
  cases u
  simp_all

theorem EqButRam.setLc (h : EqButRam t u) (b : Board) (x : Lifecycle) : EqButRam (setLc b x t) (setLc b x u) := by
  obtain ⟨m, rfl⟩ := h
  exact ⟨m, by cases b <;> rfl⟩

theorem EqButRam.closing (h : EqButRam t u) : EqButRam { emit [.releaseAll] t with phase := .released }
    { emit [.releaseAll] u with phase := .released } := by
  obtain ⟨m, rfl⟩ := h
  exact ⟨m, rfl⟩

/-- Each kind of instruction comes to the same outcome but for the RAM. -/
theorem exec_sameButRam (i : Instr) (s : State) (m : Memory) :
    SameButRam (exec i s) (exec i { s with ram := m }) := by
  obtain rfl | rfl | ⟨b, rfl, hb⟩ | ⟨r, hr⟩ := exec_kinds i s.cfg s.params
  · rw [exec_openLines, exec_openLines]
    exact .serve (.next ⟨m, rfl⟩)
  · by_cases ho : s.phase = .opened
    · rw [exec_teardown_opened ho, exec_teardown_opened (s := { s with ram := m }) ho]
      exact .serve (.next (((fill_sends 0x00 s).eqButRam (fill_sends 0x00 { s with ram := m })).closing))
    · rw [exec_teardown_idle ho, exec_teardown_idle (s := { s with ram := m }) ho]
      exact .serve (.next ⟨m, rfl⟩)
  · rw [exec_init_wired hb, exec_init_wired (s := { s with ram := m }) hb]
    obtain ⟨u, hs, he⟩ := initialise_sends b s
    obtain ⟨u', hs', he'⟩ := initialise_sends b { s with ram := m }
    rw [he, he']
    exact .serve (.next ((hs.eqButRam hs').setLc b .enabled))
  · obtain ⟨o, ho, he⟩ := hr s rfl rfl
    obtain ⟨o', ho', he'⟩ := hr { s with ram := m } rfl rfl
    rw [he, he']
    refine .serve ?_
    cases r with
    | refusal r => cases ho; cases ho'; exact .refused r
    | error c => cases ho; cases ho'; exact .next ⟨m, rfl⟩
    | sends ms =>
      obtain ⟨t, hs, rfl⟩ := ho
      obtain ⟨u, hs', rfl⟩ := ho'
      exact .next (hs.eqButRam hs')

end Same

/-- Settles O39: each kind of instruction comes to the same outcome but for the RAM. -/
theorem ramIsNeverRead : Obligations.RamIsNeverRead :=
  exec_sameButRam

end Sys2Proof.Machine
end

section
/-! PROOFS. The decoder and the encoder of group W (30_encoding.md R61 to R67, R73): which frames decode, and that a frame
is determined by its fields. -/

namespace Sys2Proof

/-- The length and the number of the frame with these fields (30_encoding.md R62 to R64). -/
def Frame.code : Frame → Nat × Nat
  | .command o => (12, commandFrame o)
  | .nibble a d => (14, nibbleFrame a d)
  | .byte a d => (18, byteFrame a d)

theorem commandFrame_eq (o : Byte) : commandFrame o = 0x800 + 2 * o.toNat := by
  have ho : o.toNat <<< 1 = 2 * o.toNat := by rw [Nat.shiftLeft_eq]; omega
  rw [commandFrame, ← Nat.shiftLeft_add_eq_or_of_lt (by omega), ho]
  rfl

theorem decodeFrame_commandFrame (o : Byte) : decodeFrame 12 (commandFrame o) = some (.command o) := by
  have hopcode : BitVec.ofNat 8 (commandFrame o >>> 1) = o := by
    rw [commandFrame_eq]; bv_omega
  simp [decodeFrame, Laws.RowMatch.commandFrame_fits, hopcode]

section Rows
variable {len v : Nat}

theorem Row.fits_iff {r : Row} : r.fits len v = true ↔ len = r.len ∧ v < 2 ^ r.len ∧ v &&& r.mask = r.pattern := by
  simp [Row.fits, and_assoc]

/-- Where a mask is all ones over the `n` bits from position `k`, it leaves those bits of the number. -/
theorem div_mod_of_and {m p k n : Nat} (h : v &&& m = p) (hm : m / 2 ^ k % 2 ^ n = 2 ^ n - 1) :
    v / 2 ^ k % 2 ^ n = p / 2 ^ k % 2 ^ n := by
  simp only [← Nat.shiftRight_eq_div_pow, ← Nat.and_two_pow_sub_one_eq_mod] at hm ⊢
  rw [← h, Nat.shiftRight_and_distrib, Nat.and_assoc, hm]

/-- The fixed bits of row CMD are its leading three and its last. -/
theorem eq_commandFrame_of_fits (h : rowCmd.fits len v = true) :
    (len, v) = (12, commandFrame (BitVec.ofNat 8 (v >>> 1))) := by
  obtain ⟨rfl, hlt : v < 2 ^ 12, hmask⟩ := Row.fits_iff.1 h
  have hid : v / 2 ^ 9 % 2 ^ 3 = 4 := div_mod_of_and hmask rfl
  have hlast : v / 2 ^ 0 % 2 ^ 1 = 0 := div_mod_of_and hmask rfl
  refine Prod.ext rfl ?_
  rw [commandFrame_eq, BitVec.toNat_ofNat, Nat.shiftRight_eq_div_pow]
  omega

/-- The fixed bits of row WR_NIB are its leading four. -/
theorem eq_nibbleFrame_of_fits (h : rowNib.fits len v = true) :
    (len, v) = (14, nibbleFrame (BitVec.ofNat 6 (v >>> 4)) (BitVec.ofNat 4 v)) := by
  obtain ⟨rfl, hlt : v < 2 ^ 14, hmask⟩ := Row.fits_iff.1 h
  have hid : v / 2 ^ 10 % 2 ^ 4 = 10 := div_mod_of_and hmask rfl
  refine Prod.ext rfl ?_
  rw [Machine.nibbleFrame_eq, BitVec.toNat_ofNat, BitVec.toNat_ofNat, Nat.shiftRight_eq_div_pow]
  omega

/-- The fixed bits of row WR_BYTE are its leading four. -/
theorem eq_byteFrame_of_fits (h : rowByte.fits len v = true) :
    (len, v) = (18, byteFrame (BitVec.ofNat 6 (v >>> 8)) (BitVec.ofNat 8 v)) := by
  obtain ⟨rfl, hlt : v < 2 ^ 18, hmask⟩ := Row.fits_iff.1 h
  have hid : v / 2 ^ 14 % 2 ^ 4 = 10 := div_mod_of_and hmask rfl
  refine Prod.ext rfl ?_
  rw [Machine.byteFrame_eq, BitVec.toNat_ofNat, BitVec.toNat_ofNat, Nat.shiftRight_eq_div_pow]
  omega

/-- A frame that decodes is the one with the fields read from it. -/
theorem code_of_decodeFrame {fr : Frame} (h : decodeFrame len v = some fr) : (len, v) = fr.code := by
  unfold decodeFrame at h
  split at h
  · next hfits =>
    cases h
    exact eq_commandFrame_of_fits hfits
  · split at h
    · next hfits =>
      cases h
      exact eq_nibbleFrame_of_fits hfits
    · split at h
      · next hfits =>
        cases h
        exact eq_byteFrame_of_fits hfits
      · cases h

theorem decodeFrame_eq_none (hc : ¬ rowCmd.fits len v = true) (hn : ¬ rowNib.fits len v = true)
    (hb : ¬ rowByte.fits len v = true) : decodeFrame len v = none := by
  rw [decodeFrame, if_neg hc, if_neg hn, if_neg hb]

theorem decode_frame {fr : Frame} (h : decodeFrame len v = some fr) (p : Params) (b : Board) :
    decode p (.frame b len v) = .ok (fr.instr p b) := by
  simp only [decode, h]

theorem decode_frame_none (h : decodeFrame len v = none) (p : Params) (b : Board) :
    decode p (.frame b len v) = .error .malformedFrame := by
  simp only [decode, h]

/-- What a frame decodes to is the instruction of its fields. -/
theorem decode_frame_ok {p : Params} {b : Board} {i : Instr} (h : decode p (.frame b len v) = .ok i) :
    ∃ fr : Frame, (len, v) = fr.code ∧ i = fr.instr p b := by
  cases hd : decodeFrame len v with
  | none => cases (decode_frame_none hd p b).symm.trans h
  | some fr =>
    cases (decode_frame hd p b).symm.trans h
    exact ⟨fr, code_of_decodeFrame hd, rfl⟩

end Rows

end Sys2Proof
end

section
/-! PROOFS. The named commands of group C (30_encoding.md R66) among the command frames: the first name of INIT_SEQ with
the opcode of the frame wins (log 10). -/

namespace Sys2Proof

section Names
variable {p : Params} {o : Byte} {n : CommandName}

theorem Params.opcode_of_named (h : p.named o = some n) : p.opcode n = o := by
  simpa using List.find?_some h

theorem CommandName.mem_initSeq (n : CommandName) : n ∈ Config.initSeq := by
  cases n <;> decide

/-- The opcode of a name has a first name. -/
theorem Params.exists_named (p : Params) (n : CommandName) : ∃ m, p.named (p.opcode n) = some m :=
  Option.isSome_iff_exists.1 (List.find?_isSome.2 ⟨n, n.mem_initSeq, beq_self_eq_true _⟩)

theorem CommandName.encode_instr (p : Params) (b : Board) (n : CommandName) :
    encode p (n.instr b) = .frame b 12 (commandFrame (p.opcode n)) := by
  cases n <;> rfl

theorem CommandName.wf_instr (p : Params) (b : Board) (n : CommandName) :
    (n.instr b).wf p = (p.named (p.opcode n) == some n) := by
  cases n <;> rfl

theorem Frame.instr_command_named (h : p.named o = some n) (b : Board) : (Frame.command o).instr p b = n.instr b := by
  simp only [Frame.instr, h]

theorem Frame.instr_command_unnamed (h : p.named o = none) (b : Board) : (Frame.command o).instr p b = .cmd b o := by
  simp only [Frame.instr, h]

/-- A command frame decodes to the first name of its opcode. -/
theorem decode_commandFrame_named (h : p.named o = some n) (b : Board) :
    decode p (.frame b 12 (commandFrame o)) = .ok (n.instr b) := by
  rw [decode_frame (decodeFrame_commandFrame o), Frame.instr_command_named h]

end Names

/-- The instruction of a frame's fields is well-formed, and the encoder writes that frame for it. -/
theorem Frame.wf_encode_instr (p : Params) (b : Board) (fr : Frame) :
    (fr.instr p b).wf p = true ∧ encode p (fr.instr p b) = .frame b fr.code.1 fr.code.2 := by
  cases fr with
  | command o =>
    cases h : p.named o with
    | none =>
      rw [Frame.instr_command_unnamed h]
      exact ⟨beq_iff_eq.2 h, rfl⟩
    | some n =>
      have ho := Params.opcode_of_named h
      rw [Frame.instr_command_named h, CommandName.wf_instr, CommandName.encode_instr, ho]
      exact ⟨beq_iff_eq.2 h, rfl⟩
  | nibble a d => exact ⟨rfl, rfl⟩
  | byte a d => exact ⟨rfl, rfl⟩

/-- Settles O48: a command frame decodes to the first name of its opcode, and the opcode of a name has one. -/
theorem overlappingFramesDecodeToTheFirstName : Obligations.OverlappingFramesDecodeToTheFirstName := by
  refine fun p b => ⟨fun o n h => decode_commandFrame_named h b, fun n => ?_⟩
  obtain ⟨m, hm⟩ := p.exists_named n
  refine ⟨m, hm, Params.opcode_of_named hm, ?_⟩
  rw [CommandName.encode_instr]
  exact decode_commandFrame_named hm b

end Sys2Proof
end

section
/-! PROOFS. The request port (30_encoding.md R70, R71) and the two directions between inputs and instructions: decoding
undoes encoding, and what decodes is well-formed. -/

namespace Sys2Proof

section Port
variable {p : Params}

theorem pinFits_portPin (p : Params) (wires : Nat) : pinFits p.pinW (portPin p wires) = true :=
  decide_eq_true (Nat.mod_lt _ (Nat.two_pow_pos _))

theorem portPin_of_fits {c : Pin} (h : pinFits p.pinW c = true) : portPin p c = c :=
  Nat.mod_eq_of_lt (of_decide_eq_true h)

theorem columnFits_iff {w : Nat} {a : Int} : columnFits w a = true ↔ -(2 ^ w) ≤ 2 * a ∧ 2 * a < 2 ^ w := by
  simp [columnFits]

theorem columnFits_portColumn (p : Params) (wires : Nat) : columnFits p.addrW (portColumn p wires) = true :=
  columnFits_iff.2 ⟨BitVec.le_two_mul_toInt, BitVec.two_mul_toInt_lt⟩

/-- A signed number that fits the port is read back from its wires. -/
theorem portColumn_ofInt {a : Int} (h : columnFits p.addrW a = true) :
    portColumn p (BitVec.ofInt p.addrW a).toNat = a := by
  obtain ⟨hlo, hhi⟩ := columnFits_iff.1 h
  rw [portColumn, BitVec.ofNat_toNat, BitVec.setWidth_eq, BitVec.toInt_ofInt]
  exact Int.bmod_eq_of_le_mul_two (by push_cast; omega) (by push_cast; omega)

/-- The operands that well-formedness restricts are the chip-select and the column addresses, read at their widths. -/
theorem wf_of_decodeRequest {op : BitVec 4} {f : Fields} {i : Instr} (h : decodeRequest p op f = .ok i) :
    i.wf p = true := by
  have hpin := pinFits_portPin p f.chipSelect
  have hcolumn := columnFits_portColumn p f.column
  unfold decodeRequest at h
  split at h <;> cases h <;> simp [Instr.wf, hpin, hcolumn]

end Port

/-- The frame of a named command that is the first of its opcode. -/
theorem CommandName.decode_encode {p : Params} {b : Board} (n : CommandName) (h : (n.instr b).wf p = true) :
    decode p (encode p (n.instr b)) = .ok (n.instr b) := by
  rw [CommandName.wf_instr, beq_iff_eq] at h
  rw [CommandName.encode_instr, decode_commandFrame_named h]

/-- Settles O3: a frame gives back its fields, and a request its operands, read at the widths of the port. -/
theorem decodeOfEncode : Obligations.DecodeOfEncode := by
  intro p i h
  cases i with
  | cmd b o =>
    rw [encode, decode_frame (decodeFrame_commandFrame o), Frame.instr_command_unnamed (beq_iff_eq.1 h)]
  | wrNib b a d => exact decode_frame (Machine.decodeFrame_nibbleFrame a d) p b
  | wrByte b a d => exact decode_frame (Machine.decodeFrame_byteFrame a d) p b
  | systemDisable b => exact CommandName.decode_encode .systemDisable h
  | setCommon8Nmos b => exact CommandName.decode_encode .setCommon8Nmos h
  | systemEnable b => exact CommandName.decode_encode .systemEnable h
  | ledOn b => exact CommandName.decode_encode .ledOn h
  | pwm16Grayscale b => exact CommandName.decode_encode .pwm16Grayscale h
  | transmit w n c => exact congrArg (fun c => Except.ok (Instr.transmit w n c)) (portPin_of_fits h)
  | encCmd b o => rfl
  | encNib a d => rfl
  | encByte a d => rfl
  | openLines => rfl
  | initBoard b => rfl
  | clear => rfl
  | selftest => rfl
  | wrcol a v => exact congrArg (fun a => Except.ok (Instr.wrcol a v)) (portColumn_ofInt h)
  | wrhalf a v => exact congrArg (fun a => Except.ok (Instr.wrhalf a v)) (portColumn_ofInt h)
  | teardown => rfl
  | rstring t c => rfl
  | rscroll t v n => rfl

/-- Settles O4: a request is read within the widths of the port, and a frame is the one of the fields read from it. -/
theorem framesHaveOneMeaning : Obligations.FramesHaveOneMeaning := by
  constructor
  · intro p x i h
    cases x with
    | request op f => exact wf_of_decodeRequest h
    | frame b len v =>
      obtain ⟨fr, -, rfl⟩ := decode_frame_ok h
      exact (Frame.wf_encode_instr p b fr).1
  · intro p b len v i h
    obtain ⟨fr, hcode, rfl⟩ := decode_frame_ok h
    obtain ⟨rfl, rfl⟩ := Prod.mk.inj hcode
    exact (Frame.wf_encode_instr p b fr).2

/-- Settles O5: each word is evaluated. -/
theorem sampleWordsDecode : Obligations.SampleWordsDecode :=
  ⟨rfl, rfl, rfl, rfl, rfl, rfl⟩

end Sys2Proof

namespace Sys2Proof.Machine

/-- Settles O2: what the decoder rejects ends in a refusal, and with nothing presented nothing happens. -/
theorem stepRefusesWhatIsNoInstruction : Obligations.StepRefusesWhatIsNoInstruction := by
  refine ⟨fun s op f rest hq hop => ?_, fun s b len v rest hq hc hn hb => ?_, fun s => step_of_no_request⟩
  · have hd : decode s.params (.request op f) = .error .reservedRequestCode := by
      obtain rfl | rfl | rfl := hop <;> rfl
    exact step_of_decode_error hq hd
  · have hd := decodeFrame_eq_none (mt Row.fits_iff.1 hc) (mt Row.fits_iff.1 hn) (mt Row.fits_iff.1 hb)
    exact step_of_decode_error hq (decode_frame_none hd s.params b)

end Sys2Proof.Machine
end

section
/-! PROOFS. The conceptual words (30_encoding.md R62 to R64), the bits sent of them, and the named commands that send
them. -/

namespace Sys2Proof.Machine

/-- A field of a conceptual word that ends within it. -/
theorem toNat_setWidth_shiftLeft {n w k : Nat} (x : BitVec n) (h : n + k ≤ w) :
    (x.setWidth w <<< k).toNat = x.toNat <<< k := by
  have hlt : x.toNat <<< k < 2 ^ w := by
    rw [Nat.shiftLeft_eq]
    calc x.toNat * 2 ^ k < 2 ^ n * 2 ^ k := Nat.mul_lt_mul_of_pos_right x.isLt (Nat.two_pow_pos k)
      _ = 2 ^ (n + k) := (Nat.pow_add 2 n k).symm
      _ ≤ 2 ^ w := Nat.pow_le_pow_right (by decide) h
  rw [BitVec.toNat_shiftLeft, BitVec.toNat_setWidth_of_le (by omega), Nat.mod_eq_of_lt hlt]

theorem toNat_commandWord (o : Byte) : (commandWord o).toNat = (0b100 <<< 13 ||| o.toNat <<< 5) := by
  rw [commandWord, BitVec.toNat_or, toNat_setWidth_shiftLeft o (by decide)]
  rfl

theorem toNat_nibbleWord (a : Byte) (d : Nibble) :
    (nibbleWord a d).toNat = (0b101 <<< 13 ||| (a.toNat &&& 0x3F) <<< 6 ||| (d.toNat &&& 0xF) <<< 2) := by
  rw [nibbleWord, BitVec.toNat_or, BitVec.toNat_or, toNat_setWidth_shiftLeft _ (by decide),
    toNat_setWidth_shiftLeft _ (by decide), BitVec.toNat_and, BitVec.toNat_and]
  rfl

theorem toNat_byteWord (a : Byte) (d : Byte) :
    (byteWord a d).toNat = (0b101 <<< 15 ||| (a.toNat &&& 0x3F) <<< 8 ||| d.toNat) := by
  rw [byteWord, BitVec.toNat_or, BitVec.toNat_or, toNat_setWidth_shiftLeft _ (by decide), BitVec.toNat_and,
    BitVec.toNat_setWidth_of_le (by decide)]
  rfl

theorem sentBits_commandWord (o : Byte) : sentBits (commandWord o) 12 = commandBits o := by
  have hpos : positions 12 = [15, 14, 13, 12, 11, 10, 9, 8, 7, 6, 5, 4] := rfl
  simp [sentBits, hpos, commandWord, commandBits, Config.cmdId, List.range_succ]

/-- Settles O6: the fields of each word do not overlap, and its bits agree position by position. -/
theorem wireWordLayouts : Obligations.WireWordLayouts :=
  ⟨fun o => ⟨toNat_commandWord o, sentBits_commandWord o⟩,
    fun a d => ⟨toNat_nibbleWord a d, sentBits_nibbleWord a d⟩,
    fun a d => ⟨toNat_byteWord a d, sentBits_byteWord a d⟩⟩

theorem sendCommand_puts (b : Board) (o : Byte) (s : State) :
    Puts (sentTo s.cfg b (commandBits o)) s (sendCommand b o s) :=
  sentBits_commandWord o ▸ send_puts b (commandWord o) 12 s

theorem exec_namedCommand (n : CommandName) (b : Board) (s : State) :
    exec (n.instr b) s = serveOpened s (.next (sendCommand b (s.params.opcode n) s)) := by
  cases n <;> rfl

/-- A named command sends the frame of its opcode (30_encoding.md R66). -/
theorem Ready.namedCommand_puts {s : State} (h : Ready s) (n : CommandName) (b : Board) :
    ∃ t, exec (n.instr b) s = .next t ∧ Puts (sentTo s.cfg b (commandBits (s.params.opcode n))) s t :=
  ⟨_, (exec_namedCommand n b s).trans (h.serveOpened _), sendCommand_puts b _ s⟩

/-- Settles O22: the five names are served alike. -/
theorem namedCommandsSendTheirOpcode : Obligations.NamedCommandsSendTheirOpcode :=
  fun _ b h => ⟨h.namedCommand_puts .systemDisable b, h.namedCommand_puts .setCommon8Nmos b,
    h.namedCommand_puts .systemEnable b, h.namedCommand_puts .ledOn b, h.namedCommand_puts .pwm16Grayscale b⟩

end Sys2Proof.Machine
end

section
/-! PROOFS. The frames that the pass of 30_encoding.md R68 reads on a line when the block sends a list of emissions. -/

namespace Sys2Proof.Machine

/-- The bits of an emission, when it is a frame to the board `b`. -/
def Emission.bitsTo (b : Board) : Emission → Option (List Bool)
  | .frame b' bits => if b' = b then some bits else none
  | .wait _ => none

section Emissions
variable {c : Cfg} {b : Board} {x : Scan}

theorem Scan.closed_emission {m : Emission} (hp : PinsApart c) (hb : wired c b = true) (hm : m.toWired c)
    (hx : x.current = none) :
    ((m.events c).foldl (Scan.step c (resolve c b)) x).closed = x.closed ++ (m.bitsTo b).toList := by
  cases m with
  | wait t => simp [Emission.events, Emission.bitsTo, Scan.step_idle hx]
  | frame b' bits =>
    by_cases hne : b = b'
    · subst hne
      rw [Emission.events, Scan.foldl_frame_own hp.wr_ne_data (hp.cs_ne_wr hb) (hp.cs_ne_data hb) bits hx]
      simp [Emission.bitsTo]
    · rw [Emission.events, Scan.foldl_frame_other hp hb hm hne bits hx]
      simp [Emission.bitsTo, Ne.symm hne]

/-- The line of a wired board carries the frames sent to that board, in order. -/
theorem Scan.closed_emissions {ms : List Emission} (hp : PinsApart c) (hb : wired c b = true)
    (hms : ∀ m ∈ ms, m.toWired c) (hx : x.current = none) :
    ((ms.flatMap (Emission.events c)).foldl (Scan.step c (resolve c b)) x).closed =
      x.closed ++ ms.filterMap (Emission.bitsTo b) := by
  induction ms generalizing x with
  | nil => simp
  | cons m rest ih =>
    obtain ⟨hm, hrest⟩ := List.forall_mem_cons.1 hms
    rw [List.flatMap_cons, List.foldl_append, ih hrest (Scan.current_emission hp hb hm hx),
      Scan.closed_emission hp hb hm hx, List.append_assoc, List.filterMap_cons]
    cases m.bitsTo b <;> rfl

end Emissions

/-- The frames of a wired board's line after emissions, and after events that lower no line. -/
theorem frames_append_emissions {s : State} {b : Board} {ms : List Emission} {es : List Event}
    (hp : PinsApart s.cfg) (hi : Inv s) (hb : wired s.cfg b = true) (hms : ∀ m ∈ ms, m.toWired s.cfg)
    (hes : ∀ p l, .pinWrite p l ∉ es) :
    frames s.cfg (s.trace ++ (ms.flatMap (Emission.events s.cfg) ++ es)) (resolve s.cfg b) =
      frames s.cfg s.trace (resolve s.cfg b) ++ ms.filterMap (Emission.bitsTo b) := by
  have hx := hi.frames_closed b hb
  rw [frames, scan_append, List.foldl_append,
    Scan.foldl_idle (Scan.current_emissions hp hb hms hx) (hes _ _)]
  exact Scan.closed_emissions hp hb hms hx

end Sys2Proof.Machine
end

section
/-! PROOFS. The formats of the frames each instruction sends (30_encoding.md R60), and the parity of the addresses the
block generates (70_reset_and_hazards.md R158). -/

namespace Sys2Proof.Machine

/-- The bits are a frame of one of the three formats. -/
def IsFormat (f : List Bool) : Prop :=
  (∃ o, f = commandBits o) ∨ (∃ a d, f = nibbleBits a d) ∨ (∃ a d, f = byteBits a d)

/-- The bits are a BYTE18 frame with an even chip address. -/
def IsEvenByte (f : List Bool) : Prop :=
  ∃ (a : BitVec 6) (d : Byte), a.getLsbD 0 = false ∧ f = byteBits a d

/-- Every frame among the emissions satisfies `P`. -/
def FramesMeet (P : List Bool → Prop) (ms : List Emission) : Prop :=
  ∀ b bits, .frame b bits ∈ ms → P bits

section Meet
variable {P Q : List Bool → Prop} {ms ns : List Emission}

theorem FramesMeet.nil : FramesMeet P [] := nofun

theorem FramesMeet.wait (t : Duration) : FramesMeet P [.wait t] := by
  simp [FramesMeet]

theorem FramesMeet.append (h : FramesMeet P ms) (k : FramesMeet P ns) : FramesMeet P (ms ++ ns) :=
  fun b bits hm => (List.mem_append.1 hm).elim (h b bits) (k b bits)

theorem FramesMeet.flatMap {β : Type} {l : List β} {items : β → List Emission}
    (h : ∀ x ∈ l, FramesMeet P (items x)) : FramesMeet P (l.flatMap items) := by
  intro b bits hm
  obtain ⟨x, hx, hm⟩ := List.mem_flatMap.1 hm
  exact h x hx b bits hm

theorem FramesMeet.ite {q : Prop} [Decidable q] (h : q → FramesMeet P ms) :
    FramesMeet P (if q then ms else []) := by
  split
  · next hq => exact h hq
  · exact .nil

theorem FramesMeet.bitsTo (h : FramesMeet P ms) (b : Board) : ∀ f ∈ ms.filterMap (Emission.bitsTo b), P f := by
  intro f hf
  obtain ⟨m, hm, hbits⟩ := List.mem_filterMap.1 hf
  cases m with
  | wait t => cases hbits
  | frame b' bits =>
    simp only [Emission.bitsTo, Option.ite_none_right_eq_some, Option.some.injEq] at hbits
    exact hbits.2 ▸ h b' bits hm

/-! ## The emissions of the shared operations -/

theorem sendItems_meet {w : WireWord} {n : Nat} (h : P (sentBits w n)) (c : Cfg) (b : Board) :
    FramesMeet P (sendItems c b w n) :=
  .ite fun _ _ _ hm => by
    cases List.mem_singleton.1 hm
    exact h

theorem commandItems_isFormat (c : Cfg) (b : Board) (o : Byte) : FramesMeet IsFormat (commandItems c b o) :=
  sendItems_meet (.inl ⟨o, sentBits_commandWord o⟩) c b

theorem isFormat_nibbleWord (a : Byte) (d : Nibble) : IsFormat (sentBits (nibbleWord a d) 14) :=
  .inr (.inl ⟨_, d, sentBits_nibbleWord a d⟩)

theorem isFormat_byteWord (a v : Byte) : IsFormat (sentBits (byteWord a v) 18) :=
  .inr (.inr ⟨_, v, sentBits_byteWord a v⟩)

/-- The chip address is even where the logical address is (20_memory.md R43). -/
theorem isEvenByte_byteWord {a : Byte} (ha : a.getLsbD 0 = false) (v : Byte) :
    IsEvenByte (sentBits (byteWord a v) 18) :=
  ⟨_, v, by simpa using ha, sentBits_byteWord a v⟩

theorem nibbleItems_isFormat (c : Cfg) (a : Byte) (d : Nibble) : FramesMeet IsFormat (nibbleItems c a d) :=
  .append (.ite fun _ => sendItems_meet (isFormat_nibbleWord a d) c _)
    (.ite fun _ => sendItems_meet (isFormat_nibbleWord a d) c _)

theorem byteItems_meet {a v : Byte} (h : P (sentBits (byteWord a v) 18)) (c : Cfg) : FramesMeet P (byteItems c a v) :=
  .append (.ite fun _ => sendItems_meet h c _) (.ite fun _ => sendItems_meet h c _)

theorem initItems_isFormat (c : Cfg) (p : Params) (b : Board) : FramesMeet IsFormat (initItems c p b) :=
  have command := commandItems_isFormat c b
  (((((command _).append (command _)).append (command _)).append (command _)).append (command _)).append (.wait _)

end Meet

/-! ## The generated addresses -/

theorem getLsbD_zero_evenAddresses {a : Byte} (ha : a ∈ evenAddresses) : a.getLsbD 0 = false := by
  obtain ⟨k, -, rfl⟩ := List.mem_map.1 ha
  simp [BitVec.getLsbD]

theorem getLsbD_zero_ofInt {a : Int} (ha : Even a) : (BitVec.ofInt 8 a).getLsbD 0 = false := by
  obtain ⟨k, rfl⟩ := ha
  have hmod : ((k + k) % 2 ^ 8).toNat % 2 ≠ 1 := by omega
  simpa [BitVec.getLsbD] using hmod

theorem fillItems_isEvenByte (c : Cfg) (v : Byte) : FramesMeet IsEvenByte (fillItems c v) :=
  .flatMap fun _ ha => byteItems_meet (isEvenByte_byteWord (getLsbD_zero_evenAddresses ha) v) c

theorem columnItems_isEvenByte (c : Cfg) {a : Int} (ha : Even a) (v : Byte) :
    FramesMeet IsEvenByte (columnItems c a v) :=
  .ite fun _ => byteItems_meet (isEvenByte_byteWord (getLsbD_zero_ofInt ha) v) c

theorem columnsItems_isEvenByte (c : Cfg) (vs : List Byte) {a : Int} (ha : Even a) :
    FramesMeet IsEvenByte (columnsItems c vs a) := by
  induction vs generalizing a with
  | nil => exact .nil
  | cons v vs ih => exact (columnItems_isEvenByte c ha v).append (ih (ha.add even_two))

theorem textItems_isEvenByte (c : Cfg) (p : Params) (text : List Nat) {cur : Int} (hcur : Even cur) :
    FramesMeet IsEvenByte (textItems c p text cur) := by
  induction text generalizing cur with
  | nil => exact .nil
  | cons ch cs ih =>
    refine FramesMeet.append ?_ (ih (hcur.add (by decide)))
    cases glyphOf p.font ch with
    | none => exact .nil
    | some g => exact columnsItems_isEvenByte c _ hcur

theorem cyclesItems_isEvenByte (text : List Nat) (speed : Rat) (c : Cfg) (p : Params) (n : Nat) :
    FramesMeet IsEvenByte (cyclesItems text speed c p n) := by
  induction n with
  | zero => exact .nil
  | succ n ih =>
    refine FramesMeet.append (.flatMap fun offset _ => ?_) ih
    exact (textItems_isEvenByte c p text (even_two.mul_left offset)).append (.wait _)

/-! ## The frames of an instruction -/

/-- The frames an instruction may send: any by a direct TRANSMIT, bytes to even addresses by the operations that generate
addresses, the three formats by every other. -/
def SendsOnly : Instr → List Bool → Prop
  | .transmit _ _ _ => fun _ => True
  | .clear | .selftest | .teardown | .rstring _ _ | .rscroll _ _ _ => IsEvenByte
  | _ => IsFormat

/-- The trace of `t` is that of `s` with emissions whose frames satisfy `P`, and then events that write no pin. -/
def PutsFrames (P : List Bool → Prop) (s t : State) : Prop :=
  ∃ (ms : List Emission) (es : List Event), (∀ m ∈ ms, m.toWired s.cfg) ∧ FramesMeet P ms ∧
    t.trace = s.trace ++ (ms.flatMap (Emission.events s.cfg) ++ es) ∧ ∀ p l, .pinWrite p l ∉ es

section Served
variable {P : List Bool → Prop} {s t u : State}

theorem PutsFrames.of_noFrames {es : List Event} (ht : t.trace = s.trace ++ es) (hes : ∀ p l, .pinWrite p l ∉ es) :
    PutsFrames P s t :=
  ⟨[], es, nofun, .nil, ht, hes⟩

theorem Sends.putsFrames {ms : List Emission} (hs : Sends ms s u) (h : FramesMeet P ms) {es : List Event}
    (ht : t.trace = u.trace ++ es) (hes : ∀ p l, .pinWrite p l ∉ es) : PutsFrames P s t :=
  ⟨ms, es, hs.wired, h, by rw [ht, hs.trace, List.append_assoc], hes⟩

theorem PutsFrames.of_served {ms : List Emission} (hs : Sends ms s u) (h : FramesMeet P ms)
    (he : serveOpened s (.next u) = .next t) : PutsFrames P s t := by
  obtain ⟨-, -, hu⟩ := serveOpened_next he
  cases hu
  exact hs.putsFrames h (List.append_nil _).symm (by simp)

theorem PutsFrames.of_raised {c : ErrorCode} (he : serveOpened s (.next (raise c s)) = .next t) :
    PutsFrames P s t := by
  obtain ⟨-, -, hu⟩ := serveOpened_next he
  cases hu
  exact .of_noFrames (es := [.report c]) rfl (by simp)

end Served

theorem exec_putsFrames {i : Instr} {s t : State} (h : exec i s = .next t) : PutsFrames (SendsOnly i) s t := by
  cases i with
  | cmd b o => exact .of_served (sendCommand_sends b o s) (commandItems_isFormat _ b o) h
  | wrNib b a d => exact .of_served (send_sends b _ 14 s) (sendItems_meet (isFormat_nibbleWord _ d) _ b) h
  | wrByte b a d => exact .of_served (send_sends b _ 18 s) (sendItems_meet (isFormat_byteWord _ d) _ b) h
  | systemDisable b => exact .of_served (sendCommand_sends b _ s) (commandItems_isFormat _ b _) h
  | setCommon8Nmos b => exact .of_served (sendCommand_sends b _ s) (commandItems_isFormat _ b _) h
  | systemEnable b => exact .of_served (sendCommand_sends b _ s) (commandItems_isFormat _ b _) h
  | ledOn b => exact .of_served (sendCommand_sends b _ s) (commandItems_isFormat _ b _) h
  | pwm16Grayscale b => exact .of_served (sendCommand_sends b _ s) (commandItems_isFormat _ b _) h
  | transmit w n cs =>
    obtain ⟨ms, es, hms, -, htrace, hes⟩ := (exec_effect h).2.stores
    exact ⟨ms, es, hms, fun _ _ _ => trivial, htrace, hes⟩
  | encCmd sel o =>
    simp only [exec, execEncCmd] at h
    split at h
    · exact .of_raised h
    · exact .of_served (sendCommand_sends _ o s) (commandItems_isFormat _ _ o) h
  | encNib a d => exact .of_served (encodeNibble_sends a d s) (nibbleItems_isFormat _ a d) h
  | encByte a v => exact .of_served (encodeByte_sends a v s) (byteItems_meet (isFormat_byteWord a v) _) h
  | openLines =>
    obtain ⟨-, -, ht⟩ := serve_next h
    cases ht
    exact .of_noFrames rfl fun _ _ => pinWrite_notMem_openEvents
  | initBoard sel =>
    simp only [exec, execInit] at h
    split at h
    · exact .of_raised h
    · split at h
      · next b _ _ =>
        obtain ⟨u, hs, he⟩ := initialise_sends b s
        obtain ⟨-, -, ht⟩ := serveOpened_next h
        cases ht
        exact hs.putsFrames (initItems_isFormat _ _ b) (es := []) (by simp [he]) (by simp)
      · exact .of_served (Sends.refl s) .nil h
  | clear => exact .of_served (fill_sends 0x00 s) (fillItems_isEvenByte _ _) h
  | selftest =>
    have hmeet := ((fillItems_isEvenByte s.cfg 0xFF).append (.wait s.params.tSelftest)).append
      (fillItems_isEvenByte s.cfg 0x00)
    exact .of_served (selftest_sends s) hmeet h
  | wrcol a v =>
    exact .of_served (writeColumn_sends a v s) (.ite fun _ => byteItems_meet (isFormat_byteWord _ v) _) h
  | wrhalf a d =>
    exact .of_served (writeHalfColumn_sends a d s) (.ite fun _ => nibbleItems_isFormat _ _ d) h
  | teardown =>
    by_cases ho : s.phase = .opened
    · obtain ⟨-, -, ht⟩ := serve_next ((exec_teardown_opened ho).symm.trans h)
      obtain rfl := Host.Outcome.next.inj ht
      exact (fill_sends 0x00 s).putsFrames (fillItems_isEvenByte _ _) (es := [.releaseAll]) rfl (by simp)
    · obtain ⟨-, -, ht⟩ := serve_next ((exec_teardown_idle ho).symm.trans h)
      cases ht
      exact .of_noFrames (List.append_nil _).symm (by simp)
  | rstring text start =>
    simp only [exec, execRstring] at h
    split at h
    · exact .of_served (renderText_sends text _ s) (textItems_isEvenByte _ _ text (even_two.mul_left start)) h
    · exact .of_raised h
  | rscroll text speed cycles =>
    simp only [exec, execRscroll] at h
    split at h
    · cases (serveOpened_next h).2.2
    · split at h
      · exact .of_served (scrollCycles_sends text speed _ s) (cyclesItems_isEvenByte text speed _ _ _) h
      · exact .of_raised h

theorem IsEvenByte.isFormat {f : List Bool} (h : IsEvenByte f) : IsFormat f := by
  obtain ⟨a, d, -, hf⟩ := h
  exact .inr (.inr ⟨a, d, hf⟩)

theorem SendsOnly.isFormat {i : Instr} {f : List Bool} (h : SendsOnly i f) (hi : ∀ w n c, i ≠ .transmit w n c) :
    IsFormat f := by
  cases i with
  | transmit w n c => exact absurd rfl (hi w n c)
  | clear | selftest | teardown | rstring | rscroll => exact IsEvenByte.isFormat h
  | _ => exact h

/-- Settles O46: the line carries the frames of the emissions, whose formats the instruction decides. -/
theorem onlyTheThreeFormatsAreSent : Obligations.OnlyTheThreeFormatsAreSent := by
  intro i s t b hi h hb
  obtain ⟨hw, heff⟩ := exec_effect h
  obtain ⟨ms, es, hms, hmeet, htrace, hes⟩ := exec_putsFrames h
  refine ⟨ms.filterMap (Emission.bitsTo b), ?_, fun hne f hf => (hmeet.bitsTo b f hf).isFormat hne, fun hgen f hf => ?_⟩
  · rw [heff.inputs.1, htrace]
    exact frames_append_emissions (pinsApart_of_configWf hw) hi hb hms hes
  · have hf := hmeet.bitsTo b f hf
    obtain rfl | rfl | rfl | ⟨_, _, rfl⟩ | ⟨_, _, _, rfl⟩ := hgen <;> exact hf

end Sys2Proof.Machine
end

section
/-! PROOFS. What each check of TRANSMIT and of RSCROLL comes to (40_bitserializer.md R84, R86; 43_glyphrenderer.md
R124), and the refusals of a ready state (60_exceptions.md R141). -/

namespace Sys2Proof.Machine

/-- A report changes nothing but the trace (60_exceptions.md R134). -/
theorem emit_report (c : ErrorCode) (s : State) : emit [.report c] s = reported c s := rfl

theorem lengthOfField_eq_none {n : BitVec 5} (hn : ¬ (n = 12 ∨ n = 14 ∨ n = 18)) : lengthOfField n = none := by
  simpa [lengthOfField, BitVec.toNat_eq] using hn

theorem boardOfPin_eq_none {c : Cfg} {cs : Pin} (h0 : cs ≠ c.cs0) (h1 : cs ≠ c.cs1) : boardOfPin c cs = none := by
  simp only [boardOfPin, if_neg h0, if_neg h1]

section Checks
variable {s : State} (w : WireWord) (n : BitVec 5)

/-- Chip-select 0 is reported, whatever the length (D10). -/
theorem exec_transmit_zero : exec (.transmit w n 0) s = serveOpened s (.next (reported .csUnconfigured s)) := by
  simp only [exec, execTransmit, if_true, raise_eq, emit_report]

theorem exec_transmit_foreign {cs : Pin} (hcs : cs ≠ 0) (h0 : cs ≠ s.cfg.cs0) (h1 : cs ≠ s.cfg.cs1) :
    exec (.transmit w n cs) s = serveOpened s (.refused .foreignChipSelect) := by
  simp only [exec, execTransmit, if_neg hcs, boardOfPin_eq_none h0 h1]

theorem exec_transmit_badLength {n : BitVec 5} {b : Board} (hp : PinsApart s.cfg) (hb : wired s.cfg b = true)
    (hn : ¬ (n = 12 ∨ n = 14 ∨ n = 18)) :
    exec (.transmit w n (resolve s.cfg b)) s = serveOpened s (.next (reported .badLength s)) := by
  simp only [exec, execTransmit, if_neg (resolve_ne_zero hb), boardOfPin_resolve hp hb, lengthOfField_eq_none hn,
    raise_eq, emit_report]

theorem exec_rscroll_badOperands {text : List Nat} {speed : Rat} {cycles : Int} (h : speed ≤ 0 ∨ cycles < 0) :
    exec (.rscroll text speed cycles) s = serveOpened s (.refused .scrollOperands) := by
  simp only [exec, execRscroll, if_pos h]

end Checks

section Ready
variable {s : State} {r : Refusal}

theorem Ready.pinsApart (h : Ready s) : PinsApart s.cfg := pinsApart_of_configWf h.1

/-- In a ready state a request that is served with a next state is not refused. -/
theorem Ready.served_ne_refused (h : Ready s) {t : State} : Machine.serveOpened s (.next t) ≠ .refused r := by
  rw [h.serveOpened]
  nofun

/-- TRANSMIT to a wired board is not refused: it sends, or it reports its length. -/
theorem Ready.transmit_wired_ne_refused (h : Ready s) {b : Board} (hb : wired s.cfg b = true) (w : WireWord)
    (n : BitVec 5) : exec (.transmit w n (resolve s.cfg b)) s ≠ .refused r := by
  by_cases hn : n = 12 ∨ n = 14 ∨ n = 18
  · rw [exec_transmit_wired h.pinsApart hb hn]
    exact h.served_ne_refused
  · rw [exec_transmit_badLength w h.pinsApart hb hn]
    exact h.served_ne_refused

theorem Ready.of_transmit_refused (h : Ready s) {w : WireWord} {n : BitVec 5} {cs : Pin}
    (he : exec (.transmit w n cs) s = .refused r) :
    cs ≠ 0 ∧ cs ≠ s.cfg.cs0 ∧ cs ≠ s.cfg.cs1 ∧ r = .foreignChipSelect := by
  have hcs : cs ≠ 0 := by
    rintro rfl
    rw [exec_transmit_zero] at he
    exact h.served_ne_refused he
  have hother (b : Board) : cs ≠ resolve s.cfg b := by
    rintro rfl
    exact h.transmit_wired_ne_refused (by simpa [wired] using hcs) w n he
  have h0 : cs ≠ s.cfg.cs0 := hother .board0
  have h1 : cs ≠ s.cfg.cs1 := hother .board1
  rw [exec_transmit_foreign w n hcs h0 h1, h.serveOpened] at he
  cases he
  exact ⟨hcs, h0, h1, rfl⟩

theorem Ready.of_rscroll_refused (h : Ready s) {text : List Nat} {speed : Rat} {cycles : Int}
    (he : exec (.rscroll text speed cycles) s = .refused r) :
    (speed ≤ 0 ∨ cycles < 0) ∧ r = .scrollOperands := by
  simp only [exec, execRscroll] at he
  split at he
  · next ho =>
    rw [h.serveOpened] at he
    cases he
    exact ⟨ho, rfl⟩
  · split at he <;> exact absurd he h.served_ne_refused

/-- Beside OPEN a ready state refuses TRANSMIT and RSCROLL only. -/
theorem Ready.of_refused (h : Ready s) {i : Instr} (hi : i ≠ .openLines) (he : exec i s = .refused r) :
    (∃ w n cs, i = .transmit w n cs) ∨ ∃ text speed cycles, i = .rscroll text speed cycles := by
  cases i with
  | transmit w n cs => exact .inl ⟨w, n, cs, rfl⟩
  | rscroll text speed cycles => exact .inr ⟨text, speed, cycles, rfl⟩
  | openLines => exact absurd rfl hi
  | teardown =>
    simp only [exec, execTeardown, serve, h.1, if_true] at he
    cases he
  | encCmd sel o =>
    simp only [exec, execEncCmd] at he
    split at he <;> exact absurd he h.served_ne_refused
  | initBoard sel =>
    simp only [exec, execInit] at he
    split at he <;> exact absurd he h.served_ne_refused
  | rstring text start =>
    simp only [exec, execRstring] at he
    split at he <;> exact absurd he h.served_ne_refused
  | _ => exact absurd he h.served_ne_refused

end Ready

/-- Settles O13: TRANSMIT and RSCROLL are the only requests with a refusal of their own, and it is their first check but
for chip-select 0. -/
theorem onlyTwoRequestsAreRefusedWhenOpen : Obligations.OnlyTwoRequestsAreRefusedWhenOpen := by
  intro s hr
  refine ⟨fun i r hi he => ?_, fun w n cs hcs h0 h1 => ?_, fun text speed cycles ho => ?_⟩
  · obtain ⟨w, n, cs, rfl⟩ | ⟨text, speed, cycles, rfl⟩ := hr.of_refused hi he
    · exact .inl ⟨w, n, cs, rfl, hr.of_transmit_refused he⟩
    · exact .inr ⟨text, speed, cycles, rfl, hr.of_rscroll_refused he⟩
  · exact (exec_transmit_foreign w n hcs h0 h1).trans (hr.serveOpened _)
  · exact (exec_rscroll_badOperands ho).trans (hr.serveOpened _)

end Sys2Proof.Machine
end

section
/-! PROOFS. The events of a TRANSMIT that passes its validation, counted, and the frame they add to its chip-select line
(40_bitserializer.md R80 to R82; 30_encoding.md R68). -/

namespace Sys2Proof.Machine

/-- The bits sent, by their index: from the highest position down (40_bitserializer.md R81). -/
theorem sentBits_eq_map_range (w : WireWord) {n : BitVec 5} (hn : n = 12 ∨ n = 14 ∨ n = 18) :
    sentBits w n.toNat = (List.range n.toNat).map (fun k => w.getLsbD ((if n = 18 then 17 else 15) - k)) := by
  obtain rfl | rfl | rfl := hn <;> rfl

theorem length_sentBits (w : WireWord) {n : BitVec 5} (hn : n = 12 ∨ n = 14 ∨ n = 18) :
    (sentBits w n.toNat).length = n.toNat := by
  rw [sentBits_eq_map_range w hn, List.length_map, List.length_range]

section Counts
variable {c : Cfg} {cs : Pin} (bits : List Bool)

/-- An event that every bit puts out equally often. -/
theorem count_bits {e : Event} {k : Nat} (h : ∀ b, (bitEvents c b).count e = k) :
    (bits.flatMap (bitEvents c)).count e = bits.length * k := by
  have hcount : List.count e ∘ bitEvents c = fun _ => k := funext h
  rw [List.count_flatMap, hcount, List.map_const', List.sum_replicate_nat]

theorem length_frameEvents : (frameEvents c cs bits).length = 3 * bits.length + 3 := by
  have hbits : (bits.flatMap (bitEvents c)).length = bits.length * 3 := by
    simp [List.length_flatMap, bitEvents]
  simp only [frameEvents, List.length_append, hbits, List.length_cons, List.length_nil]
  omega

/-- One WR pulse for each bit. -/
theorem count_wr_low_frameEvents (hwd : c.wr ≠ c.data) (hw : cs ≠ c.wr) :
    (frameEvents c cs bits).count (.pinWrite c.wr .low) = bits.length := by
  have hbits := count_bits (c := c) (e := .pinWrite c.wr .low) (k := 1) bits fun b => by
    simp [bitEvents, hwd.symm]
  simp [frameEvents, hbits, hw]

/-- One chip-select bracket: the line is lowered once and raised once. -/
theorem count_cs_frameEvents (hw : cs ≠ c.wr) (hd : cs ≠ c.data) (l : Level) :
    (frameEvents c cs bits).count (.pinWrite cs l) = 1 := by
  have hbits := count_bits (c := c) (e := .pinWrite cs l) (k := 0) bits fun b => by
    simp [bitEvents, hw.symm, hd.symm]
  cases l <;> simp [frameEvents, hbits, hw.symm]

end Counts

section Frame
variable {s : State} {b b' : Board}

theorem transmit_sends_frame (hb : wired s.cfg b = true) (w : WireWord) (n : Nat) :
    Sends [.frame b (sentBits w n)] s (transmit b w n s) := by
  have h := transmit_sends hb w n
  rwa [sendItems, if_pos hb] at h

theorem transmit_puts (hb : wired s.cfg b = true) (w : WireWord) (n : Nat) :
    Puts (frameEvents s.cfg (resolve s.cfg b) (sentBits w n)) s (transmit b w n s) := by
  have h := (transmit_sends_frame hb w n).puts
  rwa [List.flatMap_singleton] at h

/-- The frames of a wired board's line after emissions. -/
theorem frames_of_sends {t : State} {ms : List Emission} (hp : PinsApart s.cfg) (hi : Inv s)
    (hb : wired s.cfg b = true) (hs : Sends ms s t) :
    frames t.cfg t.trace (resolve s.cfg b) =
      frames s.cfg s.trace (resolve s.cfg b) ++ ms.filterMap (Emission.bitsTo b) := by
  have h := frames_append_emissions (es := []) hp hi hb hs.wired (by simp)
  rw [List.append_nil] at h
  rwa [hs.cfg, hs.trace]

theorem frames_transmit_self (hp : PinsApart s.cfg) (hi : Inv s) (hb : wired s.cfg b = true) (w : WireWord)
    (n : Nat) : frames s.cfg (transmit b w n s).trace (resolve s.cfg b) =
      frames s.cfg s.trace (resolve s.cfg b) ++ [sentBits w n] := by
  have h := frames_of_sends hp hi hb (transmit_sends_frame hb w n)
  simpa [Emission.bitsTo] using h

theorem frames_transmit_other (hp : PinsApart s.cfg) (hi : Inv s) (hb : wired s.cfg b = true)
    (hb' : wired s.cfg b' = true) (hne : b' ≠ b) (w : WireWord) (n : Nat) :
    frames s.cfg (transmit b w n s).trace (resolve s.cfg b') = frames s.cfg s.trace (resolve s.cfg b') := by
  have h := frames_of_sends hp hi hb' (transmit_sends_frame hb w n)
  simpa [Emission.bitsTo, hne.symm] using h

end Frame

/-- In a ready state a TRANSMIT that passes its validation completes. -/
theorem Ready.exec_transmit {s : State} {b : Board} {n : BitVec 5} (h : Ready s) (hb : wired s.cfg b = true)
    (hn : n = 12 ∨ n = 14 ∨ n = 18) (w : WireWord) :
    exec (.transmit w n (resolve s.cfg b)) s = .next (transmit b w n.toNat s) :=
  (exec_transmit_wired h.pinsApart hb hn w).trans (h.serveOpened _)

/-- Settles O14: the frame's bits are read by their index, and the other two cases are the failing checks. -/
theorem transmitSendsTheWordsBits : Obligations.TransmitSendsTheWordsBits := by
  intro s w n hr
  refine ⟨fun b hb hn => ⟨_, hr.exec_transmit hb hn w, ?_⟩, ?_, fun b hb hn => ?_⟩
  · have hputs := transmit_puts hb w n.toNat
    rw [sentBits_eq_map_range w hn, frameEvents, List.flatMap_map] at hputs
    exact hputs
  · exact (exec_transmit_zero w n).trans (hr.serveOpened _)
  · exact (exec_transmit_badLength w hr.pinsApart hb hn).trans (hr.serveOpened _)

/-- Settles O15: the events are those of one frame, which the pass reads on its own line and not on the other. -/
theorem transmitAddsOneFrame : Obligations.TransmitAddsOneFrame := by
  intro s b w n hi hr hb hn
  have hp := hr.pinsApart
  have hw := hp.cs_ne_wr hb
  have hd := hp.cs_ne_data hb
  have hlen := length_sentBits w hn
  refine ⟨_, _, hr.exec_transmit hb hn w, transmit_trace s b w n.toNat, ?_, ?_, count_cs_frameEvents _ hw hd .low,
    count_cs_frameEvents _ hw hd .high, ?_, fun b' hne => ?_⟩
  · rw [length_frameEvents, hlen]
  · rw [count_wr_low_frameEvents _ hp.wr_ne_data hw, hlen]
  · rw [← sentBits_eq_map_range w hn]
    exact frames_transmit_self hp hi hb w _
  · cases hb' : wired s.cfg b' with
    | false => exact .inr rfl
    | true => exact .inl (frames_transmit_other hp hi hb hb' hne w _)

end Sys2Proof.Machine
end

section
/-! PROOFS. The frame instructions and the encoders (41_wordencoder.md R91 to R94): both send the same words, ENC_CMD to
the board of its selector, ENC_NIB and ENC_BYTE to the board their address routes to. -/

namespace Sys2Proof.Machine

section Served
variable {sel : BitVec 2} {b : Board}

/-- A request that is served as one `send` completes with the frame of the word's bits. -/
theorem Ready.sent_puts {s : State} (h : Ready s) {i : Instr} {w : WireWord} {n : Nat} {frame : List Bool}
    (hexec : exec i s = Machine.serveOpened s (.next (send b w n s))) (hbits : sentBits w n = frame) :
    ∃ t, exec i s = .next t ∧ Puts (sentTo s.cfg b frame) s t :=
  ⟨_, hexec.trans (h.serveOpened _), hbits ▸ send_puts b w n s⟩

theorem exec_cmd (b : Board) (o : Byte) (s : State) :
    exec (.cmd b o) s = serveOpened s (.next (send b (commandWord o) 12 s)) := rfl

theorem exec_wrNib (b : Board) (a : BitVec 6) (d : Nibble) (s : State) :
    exec (.wrNib b a d) s = serveOpened s (.next (send b (nibbleWord (a.setWidth 8) d) 14 s)) := rfl

theorem exec_wrByte (b : Board) (a : BitVec 6) (v : Byte) (s : State) :
    exec (.wrByte b a v) s = serveOpened s (.next (send b (byteWord (a.setWidth 8) v) 18 s)) := rfl

/-- ENC_CMD of a valid selector is CMD to its board (R90, R91). -/
theorem exec_encCmd_valid (hb : boardOfSelector sel = some b) (o : Byte) (s : State) :
    exec (.encCmd sel o) s = exec (.cmd b o) s := by
  simp only [exec, execEncCmd, hb, execCmd]

theorem exec_encCmd_invalid (hb : boardOfSelector sel = none) (o : Byte) (s : State) :
    exec (.encCmd sel o) s = serveOpened s (.next (reported .badBoard s)) := by
  simp only [exec, execEncCmd, hb, raise_eq, emit_report]

theorem boardOfSelector_boardIndex (b : Board) : boardOfSelector (BitVec.ofNat 2 (boardIndex b)) = some b := by
  cases b <;> rfl

end Served

/-! ## The logical address `64 * b + a` of a location (20_memory.md R43) -/

section Location
variable (b : Board) (a : BitVec 6)

theorem toNat_ofNat_location : (BitVec.ofNat 8 (location b a)).toNat = location b a :=
  (BitVec.toNat_ofNat _ _).trans (Nat.mod_eq_of_lt ((location_lt b a).trans (by decide)))

/-- The address routes to the location's board. -/
theorem routedBoard_location : routedBoard (BitVec.ofNat 8 (location b a)).toNat = b := by
  have ha := a.isLt
  rw [toNat_ofNat_location]
  cases b with
  | board0 => exact routedBoard_of_le (by simp only [location, boardIndex]; omega)
  | board1 => exact routedBoard_of_ge (by simp only [location, boardIndex]; omega)

/-- The address's low six bits are the location's chip address. -/
theorem setWidth_ofNat_location : (BitVec.ofNat 8 (location b a)).setWidth 6 = a := by
  have ha := a.isLt
  apply BitVec.eq_of_toNat_eq
  rw [BitVec.toNat_setWidth, toNat_ofNat_location, location]
  omega

/-- WR_NIB is ENC_NIB of the location's address (R92). -/
theorem exec_wrNib_eq_encNib (d : Nibble) (s : State) :
    exec (.wrNib b a d) s = exec (.encNib (BitVec.ofNat 8 (location b a)) d) s :=
  (exec_nibbleWrite (.inr (.inr (by rw [routedBoard_location, setWidth_ofNat_location])))).trans
    (exec_encNib _ d s).symm

/-- WR_BYTE is ENC_BYTE of the location's address (R93), which is in the lower half. -/
theorem exec_wrByte_eq_encByte (v : Byte) (s : State) :
    exec (.wrByte b a v) s = exec (.encByte (BitVec.ofNat 8 (location b a)) v) s := by
  have hle : (BitVec.ofNat 8 (location b a)).toNat ≤ 0x7F :=
    (toNat_ofNat_location b a).trans_le (Nat.le_of_lt_succ (location_lt b a))
  exact (exec_byteWrite hle (.inr (.inr (by rw [routedBoard_location, setWidth_ofNat_location])))).trans
    (exec_encByte v s hle).symm

end Location

/-- Settles O17: a valid selector sends as CMD does, an invalid one is reported. -/
theorem encCmdSendsTheCommandFrame : Obligations.EncCmdSendsTheCommandFrame := by
  intro s sel o hr
  have hsent (b : Board) (hb : boardOfSelector sel = some b) :=
    hr.sent_puts ((exec_encCmd_valid hb o s).trans (exec_cmd b o s)) (sentBits_commandWord o)
  refine ⟨fun h => hsent .board0 (h ▸ rfl), fun h => hsent .board1 (h ▸ rfl), fun h => ?_⟩
  have hnone : boardOfSelector sel = none := by obtain rfl | rfl := h <;> rfl
  exact (exec_encCmd_invalid hnone o s).trans (hr.serveOpened _)

/-- Settles O21: each instruction is one `send`, of a word whose sent bits are the frame. -/
theorem wireFramesAreSent : Obligations.WireFramesAreSent := by
  intro s b hr
  have hchip (a : BitVec 6) : (a.setWidth 8).setWidth 6 = a := by
    rw [BitVec.setWidth_setWidth_of_le _ (by decide), BitVec.setWidth_eq]
  refine ⟨fun o => hr.sent_puts (exec_cmd b o s) (sentBits_commandWord o),
    fun a d => hr.sent_puts (exec_wrNib b a d s) ?_, fun a v => hr.sent_puts (exec_wrByte b a v s) ?_⟩
  · rw [sentBits_nibbleWord, hchip]
  · rw [sentBits_byteWord, hchip]

/-- Settles O23: the selector names the board, and the location's address routes back to the location. -/
theorem wireFramesAgreeWithEncoders : Obligations.WireFramesAgreeWithEncoders :=
  fun s b o a d v => ⟨(exec_encCmd_valid (boardOfSelector_boardIndex b) o s).symm,
    exec_wrNib_eq_encNib b a d s, exec_wrByte_eq_encByte b a v s⟩

end Sys2Proof.Machine
end

section
/-! PROOFS. In which phase each instruction is served (42_displaycontroller.md R110), and the refusals of `serve`
(60_exceptions.md R141). -/

namespace Sys2Proof.Machine

/-- The phases that take an instruction: OPEN is taken in CLOSED, TEARDOWN always, every other one in OPEN. -/
def takenIn : Instr → Phase → Bool
  | .openLines, ph => ph == .closed
  | .teardown, _ => true
  | _, ph => ph == .opened

theorem takenIn_closed {i : Instr} (ho : i ≠ .openLines) (ht : i ≠ .teardown) : takenIn i .closed = false := by
  cases i <;> simp_all [takenIn]

theorem takenIn_released {i : Instr} (ht : i ≠ .teardown) : takenIn i .released = false := by
  cases i <;> simp_all [takenIn]

/-- Every instruction is served in the phases that take it. -/
theorem exec_served (i : Instr) (s : State) : ∃ k, exec i s = serve (takenIn i s.phase) s k := by
  cases i <;> exact ⟨_, rfl⟩

section Refusals
variable {i : Instr} {s : State}

theorem exec_illFormed (hw : configWf s.params s.cfg = false) : exec i s = .refused .illFormedConfiguration := by
  obtain ⟨k, hk⟩ := exec_served i s
  simp [hk, serve, hw]

theorem exec_not_taken (hw : configWf s.params s.cfg = true) (h : takenIn i s.phase = false) :
    exec i s = .refused .wrongPhase := by
  obtain ⟨k, hk⟩ := exec_served i s
  simp [hk, serve, hw, h]

/-- The refusals of a ready state are not those of the phase. -/
theorem Ready.exec_ne_wrongPhase (h : Ready s) (hi : i ≠ .openLines) : exec i s ≠ .refused .wrongPhase := by
  intro he
  obtain ⟨_, _, _, -, -, -, -, hr⟩ | ⟨_, _, _, -, -, hr⟩ := (onlyTwoRequestsAreRefusedWhenOpen s h).1 i _ hi he <;>
    cases hr

end Refusals

/-- Settles O12: the phases that take each instruction are `takenIn`, and a ready state refuses for its operands only. -/
theorem phaseDecidesWhatIsTaken : Obligations.PhaseDecidesWhatIsTaken := by
  refine fun s i => ⟨exec_illFormed, fun hw => ⟨fun hc ho ht => ?_, fun hp => ?_, fun hp hi => ?_, fun hr ht => ?_⟩⟩
  · exact exec_not_taken hw (hc ▸ takenIn_closed ho ht)
  · exact exec_not_taken hw (by rw [hp]; rfl)
  · exact Ready.exec_ne_wrongPhase ⟨hw, hp⟩ hi
  · exact exec_not_taken hw (hr ▸ takenIn_released ht)

end Sys2Proof.Machine
end

section
/-! PROOFS. OPEN (42_displaycontroller.md R100): the lines it configures and the levels they have afterwards. -/

namespace Sys2Proof.Machine

/-- A line that one Configure event names, and no other event, has the level of that event. -/
theorem Levels.line_foldl_configure {lv : Levels} {es : List Event} {p : Pin} {l : Level} (hr : .releaseAll ∉ es)
    (he : .configure p l ∈ es) (honly : ∀ e ∈ es, eventPin e = some p → e = .configure p l) :
    Levels.line (es.foldl Levels.after lv) p = .driven l := by
  have hset (lv : Levels) : Levels.line (Levels.after lv (.configure p l)) p = .driven l := by
    simp [Levels.after, Levels.line_set]
  obtain ⟨as, bs, rfl⟩ := List.append_of_mem he
  rw [List.foldl_append, List.foldl_cons]
  refine List.foldlRecOn (motive := fun lv' => Levels.line lv' p = .driven l) bs _ (hset _) fun lv' h e hb => ?_
  have hmem : e ∈ as ++ .configure p l :: bs := by simp [hb]
  by_cases hp : eventPin e = some p
  · rw [honly e hmem hp, hset]
  · rwa [Levels.line_after_other hp (ne_of_mem_of_not_mem hmem hr)]

section Open
variable {c : Cfg} {p : Params} {lv : Levels}

theorem openEvents_eq : openEvents c p = [.configure c.wr p.initWr, .configure c.data p.initData] ++
    (if wired c .board0 then [.configure c.cs0 p.initCs] else []) ++
    (if wired c .board1 then [.configure c.cs1 p.initCs] else []) := by
  simp [openEvents, wired, resolve]

/-- A pin that OPEN configures once has the level of that event. -/
theorem line_openEvents {q : Pin} {l : Level} (he : .configure q l ∈ openEvents c p)
    (honly : ∀ e ∈ openEvents c p, eventPin e = some q → e = .configure q l) :
    Levels.line ((openEvents c p).foldl Levels.after lv) q = .driven l :=
  Levels.line_foldl_configure releaseAll_notMem_openEvents he honly

theorem line_open_wr (hp : PinsApart c) :
    Levels.line ((openEvents c p).foldl Levels.after lv) c.wr = .driven p.initWr := by
  refine line_openEvents (mem_openEvents.2 (.inl rfl)) fun e he hpin => ?_
  obtain rfl | rfl | ⟨b, hb, rfl⟩ := mem_openEvents.1 he
  · rfl
  · exact absurd (Option.some.inj hpin).symm hp.wr_ne_data
  · exact absurd (Option.some.inj hpin) (hp.cs_ne_wr hb)

theorem line_open_data (hp : PinsApart c) :
    Levels.line ((openEvents c p).foldl Levels.after lv) c.data = .driven p.initData := by
  refine line_openEvents (mem_openEvents.2 (.inr (.inl rfl))) fun e he hpin => ?_
  obtain rfl | rfl | ⟨b, hb, rfl⟩ := mem_openEvents.1 he
  · exact absurd (Option.some.inj hpin) hp.wr_ne_data
  · rfl
  · exact absurd (Option.some.inj hpin) (hp.cs_ne_data hb)

theorem line_open_cs (hp : PinsApart c) {b : Board} (hb : wired c b = true) :
    Levels.line ((openEvents c p).foldl Levels.after lv) (resolve c b) = .driven p.initCs := by
  refine line_openEvents (mem_openEvents.2 (.inr (.inr ⟨b, hb, rfl⟩))) fun e he hpin => ?_
  obtain rfl | rfl | ⟨b', -, rfl⟩ := mem_openEvents.1 he
  · exact absurd (Option.some.inj hpin).symm (hp.cs_ne_wr hb)
  · exact absurd (Option.some.inj hpin).symm (hp.cs_ne_data hb)
  · rw [Option.some.inj hpin]

theorem line_open_other {q : Pin} (hw : q ≠ c.wr) (hd : q ≠ c.data)
    (hcs : ∀ b, wired c b = true → q ≠ resolve c b) :
    Levels.line ((openEvents c p).foldl Levels.after lv) q = Levels.line lv q := by
  refine Levels.line_foldl_other (fun e he hpin => ?_) releaseAll_notMem_openEvents
  obtain rfl | rfl | ⟨b, hb, rfl⟩ := mem_openEvents.1 he
  · exact hw (Option.some.inj hpin).symm
  · exact hd (Option.some.inj hpin).symm
  · exact hcs b hb (Option.some.inj hpin).symm

end Open

/-- The state OPEN leaves. -/
def openedFrom (s : State) : State := { emit (openEvents s.cfg s.params) s with phase := .opened }

@[simp] theorem openedFrom_cfg (s : State) : (openedFrom s).cfg = s.cfg := rfl
@[simp] theorem openedFrom_params (s : State) : (openedFrom s).params = s.params := rfl
@[simp] theorem openedFrom_phase (s : State) : (openedFrom s).phase = .opened := rfl
@[simp] theorem openedFrom_trace (s : State) : (openedFrom s).trace = s.trace ++ openEvents s.cfg s.params := rfl
@[simp] theorem openedFrom_lc (s : State) (b : Board) : (openedFrom s).lc b = s.lc b := by cases b <;> rfl

/-- In CLOSED OPEN completes. -/
theorem exec_openLines_closed {s : State} (hw : configWf s.params s.cfg = true) (hc : s.phase = .closed) :
    exec .openLines s = .next (openedFrom s) := by
  simp [exec_openLines, serve, hw, hc, openedFrom]

/-- Settles O24: each configured pin has the level of its one Configure event, and no other line is named. -/
theorem openConfiguresTheLines : Obligations.OpenConfiguresTheLines := by
  intro s hw hc
  have hp := pinsApart_of_configWf hw
  exact ⟨_, exec_openLines_closed hw hc, rfl, congrArg (s.trace ++ ·) openEvents_eq, line_open_wr hp,
    line_open_data hp, fun _ => line_open_cs hp, fun _ => line_open_other, rfl, rfl, rfl, rfl, rfl, rfl⟩

end Sys2Proof.Machine
end

section
/-! PROOFS. The emissions of INIT and of the fills, as frames in sending order, and their events
(42_displaycontroller.md R101, R103, R104). -/

namespace Sys2Proof.Machine

/-- A frame to a board as emissions: none when the board is not wired. -/
def itemsTo (c : Cfg) (b : Board) (frame : List Bool) : List Emission :=
  if wired c b then [.frame b frame] else []

section Items
variable {c : Cfg} {b : Board} {frame : List Bool}

theorem mem_itemsTo {m : Emission} : m ∈ itemsTo c b frame ↔ wired c b = true ∧ m = .frame b frame := by
  unfold itemsTo
  split <;> simp_all

theorem itemsTo_events : (itemsTo c b frame).flatMap (Emission.events c) = sentTo c b frame := by
  unfold itemsTo sentTo
  split <;> simp [Emission.events]

theorem sendItems_eq (w : WireWord) (n : Nat) : sendItems c b w n = itemsTo c b (sentBits w n) := rfl

theorem commandItems_eq (o : Byte) : commandItems c b o = itemsTo c b (commandBits o) := by
  rw [commandItems, sendItems_eq, sentBits_commandWord]

/-- The five frames of INIT_SEQ and the delay. -/
theorem initItems_events (p : Params) : (initItems c p b).flatMap (Emission.events c) = initEvents c p b := by
  simp [initItems, initEvents, commandItems_eq, itemsTo_events, Config.initSeq, Params.opcode, Emission.events]

/-- An address of the lower half routes a byte to one board. -/
theorem byteItems_eq {a : Byte} (ha : a.toNat ≤ 0x7F) (v : Byte) :
    byteItems c a v = itemsTo c (routedBoard a.toNat) (byteBits (a.setWidth 6) v) := by
  rw [← sentBits_byteWord, ← sendItems_eq]
  by_cases h : a.toNat ≤ 0x3F
  · have h1 : ¬ 0x40 ≤ a.toNat := by omega
    simp [byteItems, routesBoard0, byteRoutesBoard1, routedBoard, Config.b0Lo, Config.b0Hi, Config.b1bLo, h, h1]
  · have h1 : 0x40 ≤ a.toNat := by omega
    simp [byteItems, routesBoard0, byteRoutesBoard1, routedBoard, Config.b0Hi, Config.b1bLo, Config.b1bHi, h, h1, ha]

/-- The `k`-th emission of a fill goes to the logical address `2 * k`. -/
theorem fillItems_eq (c : Cfg) (v : Byte) : fillItems c v =
    (List.range 64).flatMap fun k => itemsTo c (routedBoard (2 * k)) (byteBits (BitVec.ofNat 6 (2 * k)) v) := by
  have hrange : evenAddresses = (List.range 64).map fun k => BitVec.ofNat 8 (2 * k) := rfl
  rw [fillItems, hrange, List.flatMap_map]
  refine List.flatMap_congr fun k hk => ?_
  have hk : k < 64 := List.mem_range.1 hk
  have hnat : (BitVec.ofNat 8 (2 * k)).toNat = 2 * k := by rw [BitVec.toNat_ofNat]; omega
  rw [byteItems_eq (by omega), hnat, BitVec.setWidth_ofNat_of_le (by decide)]

theorem fillItems_events (c : Cfg) (v : Byte) :
    (fillItems c v).flatMap (Emission.events c) = fillEvents c v := by
  simp only [fillItems_eq, List.flatMap_assoc, itemsTo_events, fillEvents]

theorem mem_fillItems {v : Byte} {m : Emission} : m ∈ fillItems c v ↔ ∃ k < 64,
    wired c (routedBoard (2 * k)) = true ∧ m = .frame (routedBoard (2 * k)) (byteBits (BitVec.ofNat 6 (2 * k)) v) := by
  simp only [fillItems_eq, List.mem_flatMap, List.mem_range, mem_itemsTo]

end Items

end Sys2Proof.Machine
end

section
/-! PROOFS. What INIT, CLEAR, SELFTEST, WRCOL, WRHALF, TEARDOWN and STARTUP come to when they are served
(42_displaycontroller.md R101 to R107). -/

namespace Sys2Proof.Machine

theorem exec_clear (s : State) : exec .clear s = serveOpened s (.next (fill 0x00 s)) := rfl

theorem exec_selftest (s : State) : exec .selftest s =
    serveOpened s (.next (fill 0x00 (emit [.delay s.params.tSelftest] (fill 0xFF s)))) := rfl

/-! ## INIT and STARTUP -/

section Init
variable {s : State} {b : Board}

/-- INIT of a wired board completes with its frames and delay, and the board enabled. -/
theorem Ready.exec_init_wired (h : Ready s) (hb : wired s.cfg b = true) :
    ∃ u, Puts (initEvents s.cfg s.params b) s u ∧
      exec (.initBoard (BitVec.ofNat 2 (boardIndex b))) s = .next (setLc b .enabled u) := by
  obtain ⟨u, hs, he⟩ := initialise_sends b s
  refine ⟨u, initItems_events (c := s.cfg) s.params ▸ hs.puts, ?_⟩
  rw [Machine.exec_init_wired hb, h.serveOpened, he]

/-- INIT of an unwired board is a no-op (D16). -/
theorem Ready.exec_init_unwired (h : Ready s) (hb : wired s.cfg b = false) :
    exec (.initBoard (BitVec.ofNat 2 (boardIndex b))) s = .next s := by
  simp [exec, execInit, boardOfSelector_boardIndex, hb, h.serveOpened]

theorem exec_init_invalid {sel : BitVec 2} (hsel : boardOfSelector sel = none) (s : State) :
    exec (.initBoard sel) s = serveOpened s (.next (reported .badBoard s)) := by
  simp only [exec, execInit, hsel, raise_eq, emit_report]

end Init

/-- Settles O25: the emissions of `initialise` are those of INIT_SEQ; the other two cases are the checks before it. -/
theorem initSendsFiveCommandsAndEnables : Obligations.InitSendsFiveCommandsAndEnables := by
  intro s sel hr
  refine ⟨fun b hsel hb => hsel ▸ hr.exec_init_wired hb, fun b hsel hb => hsel ▸ hr.exec_init_unwired hb, fun h => ?_⟩
  have hnone : boardOfSelector sel = none := by obtain rfl | rfl := h <;> rfl
  exact (exec_init_invalid hnone s).trans (hr.serveOpened _)

/-- `t` is what INIT of the board `b` leaves of `s`, in the terms of STARTUP. -/
structure InitLeaves (b : Board) (s t : State) : Prop where
  cfg : t.cfg = s.cfg
  params : t.params = s.params
  phase : t.phase = s.phase
  lc : ∀ b', t.lc b' = if b' = b ∧ wired s.cfg b = true then .enabled else s.lc b'
  trace : t.trace = s.trace ++ if wired s.cfg b then initEvents s.cfg s.params b else []

theorem Puts.lc {es : List Event} {s t : State} (h : Puts es s t) (b : Board) : t.lc b = s.lc b := by
  cases b
  · exact h.lc0
  · exact h.lc1

theorem InitLeaves.ready {b : Board} {s t : State} (h : InitLeaves b s t) (hr : Ready s) : Ready t := by
  rw [Ready, h.cfg, h.params, h.phase]
  exact hr

theorem Ready.initLeaves {s : State} (h : Ready s) (b : Board) :
    ∃ t, exec (.initBoard (BitVec.ofNat 2 (boardIndex b))) s = .next t ∧ InitLeaves b s t := by
  cases hb : wired s.cfg b with
  | true =>
    obtain ⟨u, hu, he⟩ := h.exec_init_wired hb
    exact ⟨_, he, by simp [hu.cfg], by simp [hu.params], by simp [hu.phase], by simp [hu.lc, hb],
      by simp [hu.trace, hb]⟩
  | false => exact ⟨s, h.exec_init_unwired hb, rfl, rfl, rfl, by simp [hb], by simp [hb]⟩

/-- Settles O30: OPEN makes the state ready, and the two INITs leave it so. -/
theorem startupEnablesEveryWiredBoard : Obligations.StartupEnablesEveryWiredBoard := by
  intro s hw hc
  have hr : Ready (openedFrom s) := ⟨hw, rfl⟩
  obtain ⟨t, ht, hleft⟩ := hr.initLeaves .board0
  obtain ⟨u, hu, hleft'⟩ := (hleft.ready hr).initLeaves .board1
  have hinit0 : exec (.initBoard 0) (openedFrom s) = .next t := ht
  have hinit1 : exec (.initBoard 1) t = .next u := hu
  have hrun : execAll exec startupRequests s = .next u := by
    simp only [startupRequests, execAll, exec_openLines_closed hw hc, hinit0, hinit1]
  refine ⟨u, hrun, ?_, fun b => ?_, ?_⟩
  · rw [hleft'.phase, hleft.phase, openedFrom_phase]
  · rw [hleft'.lc, hleft.lc, hleft.cfg]
    cases b <;> simp
  · rw [hleft'.trace, hleft.trace, hleft.cfg, hleft.params, openedFrom_trace, openedFrom_cfg, openedFrom_params]

/-! ## CLEAR, SELFTEST, WRCOL and WRHALF, TEARDOWN -/

theorem fill_puts (v : Byte) (s : State) : Puts (fillEvents s.cfg v) s (fill v s) :=
  fillItems_events s.cfg v ▸ (fill_sends v s).puts

/-- Settles O26: CLEAR is the fill with 0. -/
theorem clearWritesZeroEverywhere : Obligations.ClearWritesZeroEverywhere :=
  fun s hr => ⟨_, (exec_clear s).trans (hr.serveOpened _), fill_puts 0x00 s⟩

/-- Settles O27: SELFTEST is the fill with 0xFF, the delay, and the fill with 0. -/
theorem selftestLightsThenClears : Obligations.SelftestLightsThenClears := by
  intro s hr
  have hputs := (selftest_sends s).puts
  rw [List.flatMap_append, List.flatMap_append, fillItems_events, fillItems_events] at hputs
  exact ⟨_, (exec_selftest s).trans (hr.serveOpened _), hputs⟩

section Columns
variable {a : Int}

theorem addressInRange_iff : addressInRange a = true ↔ 0 ≤ a ∧ a ≤ 255 := by
  simp [addressInRange]

theorem exec_wrcol (h : 0 ≤ a ∧ a ≤ 255) (v : Byte) (s : State) :
    exec (.wrcol a v) s = exec (.encByte (BitVec.ofInt 8 a) v) s := by
  simp only [exec, execWrcol, execEncByte, writeColumn, if_pos (addressInRange_iff.2 h)]

theorem exec_wrhalf (h : 0 ≤ a ∧ a ≤ 255) (d : Nibble) (s : State) :
    exec (.wrhalf a d) s = exec (.encNib (BitVec.ofInt 8 a) d) s := by
  simp only [exec, execWrhalf, execEncNib, writeHalfColumn, if_pos (addressInRange_iff.2 h)]

theorem exec_wrcol_dropped (h : ¬ (0 ≤ a ∧ a ≤ 255)) (v : Byte) (s : State) :
    exec (.wrcol a v) s = serveOpened s (.next s) := by
  simp only [exec, execWrcol, writeColumn, if_neg (addressInRange_iff.not.2 h)]

theorem exec_wrhalf_dropped (h : ¬ (0 ≤ a ∧ a ≤ 255)) (d : Nibble) (s : State) :
    exec (.wrhalf a d) s = serveOpened s (.next s) := by
  simp only [exec, execWrhalf, writeHalfColumn, if_neg (addressInRange_iff.not.2 h)]

end Columns

/-- Settles O28: inside the range the outcomes are the encoders' own, outside nothing is written. -/
theorem columnWritesPassThrough : Obligations.ColumnWritesPassThrough := by
  refine fun s a v d hr => ⟨fun h0 h1 => ⟨⟨_, ?_, hr.serveOpened _⟩, ⟨_, ?_, hr.serveOpened _⟩⟩, fun h => ?_⟩
  · exact (exec_wrcol ⟨h0, h1⟩ v s).trans (hr.serveOpened _)
  · exact (exec_wrhalf ⟨h0, h1⟩ d s).trans (hr.serveOpened _)
  · have hout : ¬ (0 ≤ a ∧ a ≤ 255) := by omega
    exact ⟨(exec_wrcol_dropped hout v s).trans (hr.serveOpened _),
      (exec_wrhalf_dropped hout d s).trans (hr.serveOpened _)⟩

section Teardown
variable {s : State}

/-- The block with every line released: what TEARDOWN leaves after its clearing. -/
def releaseLines (u : State) : State := { emit [.releaseAll] u with phase := .released }

@[simp] theorem releaseLines_cfg (u : State) : (releaseLines u).cfg = u.cfg := rfl
@[simp] theorem releaseLines_params (u : State) : (releaseLines u).params = u.params := rfl
@[simp] theorem releaseLines_phase (u : State) : (releaseLines u).phase = .released := rfl
@[simp] theorem releaseLines_ram (u : State) : (releaseLines u).ram = u.ram := rfl

theorem releaseLines_eq (u : State) :
    releaseLines u = { u with phase := .released, trace := u.trace ++ [.releaseAll], levels := [] } := rfl

theorem Ready.exec_teardown (h : Ready s) : exec .teardown s = .next (releaseLines (fill 0x00 s)) := by
  simp [exec_teardown_opened h.2, serve, h.1, releaseLines]

theorem exec_teardown_no_op (hw : configWf s.params s.cfg = true) (hp : s.phase ≠ .opened) :
    exec .teardown s = .next s := by
  simp [exec_teardown_idle hp, serve, hw]

end Teardown

/-- Settles O29: TEARDOWN is CLEAR and the release of the lines, after which PHASE is no longer OPEN. -/
theorem teardownClearsAndReleasesOnce : Obligations.TeardownClearsAndReleasesOnce := by
  refine fun s hw => ⟨fun ho => ?_, exec_teardown_no_op hw⟩
  have hr : Ready s := ⟨hw, ho⟩
  have hs := fill_sends 0x00 s
  refine ⟨_, _, (exec_clear s).trans (hr.serveOpened _), hr.exec_teardown, releaseLines_eq _,
    exec_teardown_no_op ?_ (by simp)⟩
  rwa [releaseLines_params, releaseLines_cfg, hs.params, hs.cfg]

end Sys2Proof.Machine
end

section
/-! PROOFS. What a fill with 0 leaves in the ghost RAM (42_displaycontroller.md R103; 20_memory.md R48). -/

namespace Sys2Proof.Machine

section Zero
variable {m : Memory} {b b' : Board} {a x : BitVec 6}

/-- What a location reads after a byte frame of 0, which is not at chip address 63. -/
theorem Memory.read_receive_zeroByte (hx : x ≠ 63) : (m.receive b' (byteBits x 0x00)).read b a =
    if b = b' ∧ (a = x ∨ a = x + 1) then some 0 else m.read b a := by
  have hhi : (0x00 : Byte).extractLsb' 4 4 = 0 := by decide
  have hlo : (0x00 : Byte).extractLsb' 0 4 = 0 := by decide
  rw [Memory.receive_byteBits, Memory.read_writeByte, hhi, hlo, if_neg hx]
  split_ifs <;> simp_all

/-- The fill address of a location: the even one of its pair. -/
theorem exists_fillAddress (b : Board) (a : BitVec 6) : ∃ k < 64, b = routedBoard (2 * k) ∧
    (a = BitVec.ofNat 6 (2 * k) ∨ a = BitVec.ofNat 6 (2 * k) + 1) := by
  have ha := a.isLt
  cases b with
  | board0 =>
    refine ⟨a.toNat / 2, by omega, (routedBoard_of_le (by omega)).symm, ?_⟩
    bv_omega
  | board1 =>
    refine ⟨32 + a.toNat / 2, by omega, (routedBoard_of_ge (by omega)).symm, ?_⟩
    bv_omega

/-- An even chip address is not 63. -/
theorem fillAddress_ne_last (k : Nat) : BitVec.ofNat 6 (2 * k) ≠ 63 := by
  bv_omega

/-- The fill's frame to the location's own pair stores the 0, and every later frame of the fill keeps it. -/
theorem fillItems_zero_read {c : Cfg} (hb : wired c b = true) (a : BitVec 6) :
    ((fillItems c 0x00).foldl Emission.store m).read b a = some 0 := by
  obtain ⟨k, hk, rfl, ha⟩ := exists_fillAddress b a
  obtain ⟨before, after, hsplit⟩ := List.append_of_mem (mem_fillItems.2 ⟨k, hk, hb, rfl⟩)
  rw [hsplit, List.foldl_append, List.foldl_cons]
  refine List.foldlRecOn (motive := fun m' : Memory => m'.read _ a = some 0) after _ ?_ fun m' h e he => ?_
  · exact (Memory.read_receive_zeroByte (fillAddress_ne_last k)).trans (if_pos ⟨rfl, ha⟩)
  · have hmem : e ∈ fillItems c 0x00 := hsplit ▸ List.mem_append_right _ (List.mem_cons_of_mem _ he)
    obtain ⟨j, -, -, rfl⟩ := mem_fillItems.1 hmem
    rw [Emission.store, Memory.read_receive_zeroByte (fillAddress_ne_last j), h, ite_self]

end Zero

theorem fill_zero_read {s : State} {b : Board} (hb : wired s.cfg b = true) (a : BitVec 6) :
    (fill 0x00 s).ram.read b a = some 0 := by
  rw [(fill_sends 0x00 s).ram]
  exact fillItems_zero_read hb a

/-- Each of the three requests ends with a fill with 0, after which the RAM is not touched. -/
theorem Ready.exec_clearing {s : State} (h : Ready s) {i : Instr} (hi : i = .clear ∨ i = .selftest ∨ i = .teardown) :
    ∃ t u, exec i s = .next t ∧ u.cfg = s.cfg ∧ t.ram = (fill 0x00 u).ram := by
  obtain rfl | rfl | rfl := hi
  · exact ⟨fill 0x00 s, s, (exec_clear s).trans (h.serveOpened _), rfl, rfl⟩
  · exact ⟨fill 0x00 (emit [.delay s.params.tSelftest] (fill 0xFF s)), emit [.delay s.params.tSelftest] (fill 0xFF s),
      (exec_selftest s).trans (h.serveOpened _), (emit_cfg _ _).trans (fill_sends 0xFF s).cfg, rfl⟩
  · exact ⟨_, s, h.exec_teardown, rfl, releaseLines_ram _⟩

/-- No request changes the RAM of an unwired board. -/
theorem exec_ram_unwired {i : Instr} {s t : State} {b : Board} (h : exec i s = .next t) (hb : wired s.cfg b = false)
    (a : BitVec 6) : t.ram.read b a = s.ram.read b a := by
  obtain ⟨-, heff⟩ := exec_effect h
  obtain ⟨es, htrace, -⟩ := heff.events
  exact heff.ram_of_no_frame htrace (.inl hb) a

/-- Settles O36: the last fill leaves 0 at every location of a wired board; an unwired board receives no frame. -/
theorem clearingZeroesTheRam : Obligations.ClearingZeroesTheRam := by
  intro s hr i hi
  obtain ⟨t, u, he, hcfg, hram⟩ := hr.exec_clearing hi
  refine ⟨t, he, fun b a => ⟨fun hb _ => ?_, fun hb => exec_ram_unwired he hb a⟩⟩
  rw [hram]
  exact fill_zero_read (hcfg ▸ hb) a

end Sys2Proof.Machine
end

section
/-! PROOFS. The byte reversal of the outer layer (43_glyphrenderer.md R120). -/

namespace Sys2Proof.Machine

/-- The bits of `b` from the lowest are those of its reversal from the highest. -/
theorem reverse8_eq_reverse (b : Byte) : reverse8 b = b.reverse := by
  have hbits : (List.range 8).map b.getLsbD = (List.range 8).map (fun k => b.reverse.getLsbD (8 - 1 - k)) := by
    refine List.map_congr_left fun k hk => ?_
    have hk : k < 8 := List.mem_range.1 hk
    have hback : 8 - 1 - (8 - 1 - k) = k := by omega
    rw [BitVec.getLsbD_reverse, BitVec.getMsbD, hback, decide_eq_true (by omega), Bool.true_and]
  rw [reverse8, hbits, bitsValue_getLsbD, BitVec.ofNat_toNat, BitVec.setWidth_eq]

/-- The spec's own argument: every byte is evaluated (R120). -/
theorem reverse8Formula_eq : ∀ b : Byte, reverse8Formula b = (reverse8 b).toNat := by decide

theorem getLsbD_reverse8 (b : Byte) (k : Fin 8) : (reverse8 b).getLsbD k = b.getLsbD (7 - k) := by
  rw [reverse8_eq_reverse, BitVec.getLsbD_reverse, BitVec.getMsbD, decide_eq_true k.isLt, Bool.true_and]

/-- Settles O31: `reverse8` is the library's bit reversal, and the closed form agrees with it on every byte. -/
theorem reverseEightIsBitReversal : Obligations.ReverseEightIsBitReversal := by
  refine fun b => ⟨reverse8Formula_eq b, ?_, getLsbD_reverse8 b⟩
  rw [reverse8_eq_reverse, reverse8_eq_reverse, BitVec.reverse_reverse_eq]

end Sys2Proof.Machine
end

section
/-! PROOFS. The column writes and the delays that RSTRING and RSCROLL come to (43_glyphrenderer.md R121 to R123), and
the rejection of a text with a code that has no glyph (D22). -/

namespace Sys2Proof.Machine

/-! ## The validation of a text -/

section Validation
variable {font : List Glyph} {ch : Nat} {text : List Nat}

theorem getElem?_of_glyphOf {g : Glyph} (h : glyphOf font ch = some g) : font[ch - 32]? = some g :=
  (Option.ite_none_left_eq_some.1 h).2

theorem isSome_glyphOf : (glyphOf font ch).isSome = true ↔ 32 ≤ ch ∧ ch - 32 < font.length := by
  rw [glyphOf, Config.fontBase]
  split
  · next hlow => simp [hlow]
  · next hbase => rw [isSome_getElem?, and_iff_right (not_lt.1 hbase)]

theorem textInRange_iff : textInRange font text = true ↔ ∀ ch ∈ text, 32 ≤ ch ∧ ch - 32 < font.length := by
  simp only [textInRange, List.all_eq_true, isSome_glyphOf]

theorem textInRange_eq_false_iff :
    textInRange font text = false ↔ ∃ ch ∈ text, ch < 32 ∨ font.length ≤ ch - 32 := by
  simp only [← Bool.not_eq_true, textInRange_iff, not_forall, not_and_or, not_le, not_lt, exists_prop]

theorem textInRange_cons :
    textInRange font (ch :: text) = true ↔ (∃ g, glyphOf font ch = some g) ∧ textInRange font text = true := by
  rw [textInRange, List.all_cons, Bool.and_eq_true, Option.isSome_iff_exists]
  rfl

end Validation

/-! ## The two requests in a ready state -/

section Served
variable {s : State} {text : List Nat}

theorem Ready.sends {ms : List Emission} {t : State} (h : Ready s) (hs : Sends ms s t) : Ready t :=
  ⟨by rw [hs.params, hs.cfg, h.1], hs.phase.trans h.2⟩

theorem Ready.exec_rstring (h : Ready s) (ht : textInRange s.params.font text = true) (start : Int) :
    exec (.rstring text start) s = .next (renderText text (start * 2) s) := by
  simp only [exec, execRstring, h.serveOpened, if_pos ht]

theorem Ready.exec_rstring_outOfRange (h : Ready s) (ht : textInRange s.params.font text = false) (start : Int) :
    exec (.rstring text start) s = .next (reported .range s) := by
  simp only [exec, execRstring, h.serveOpened, ht, Bool.false_eq_true, if_false, raise_eq, emit_report]

theorem scroll_operands_valid {speed : Rat} (hv : 0 < speed) (n : Nat) : ¬ (speed ≤ 0 ∨ (n : Int) < 0) :=
  not_or.2 ⟨not_le.2 hv, not_lt.2 n.cast_nonneg⟩

theorem Ready.exec_rscroll (h : Ready s) (ht : textInRange s.params.font text = true) {speed : Rat} (hv : 0 < speed)
    (n : Nat) : exec (.rscroll text speed n) s = .next (scrollCycles text speed n s) := by
  simp only [exec, execRscroll, h.serveOpened, if_neg (scroll_operands_valid hv n), if_pos ht, Int.toNat_natCast]

theorem Ready.exec_rscroll_outOfRange (h : Ready s) (ht : textInRange s.params.font text = false) {speed : Rat}
    (hv : 0 < speed) (n : Nat) : exec (.rscroll text speed n) s = .next (reported .range s) := by
  simp only [exec, execRscroll, h.serveOpened, if_neg (scroll_operands_valid hv n), ht, Bool.false_eq_true, if_false,
    raise_eq, emit_report]

end Served

/-! ## RSTRING as calls of WRCOL -/

/-- The calls of WRCOL that `writeColumns` stands for: successive bytes at addresses `a`, `a + 2`, ... -/
def columnCalls : List Byte → Int → List Instr
  | [], _ => []
  | v :: vs, a => .wrcol a v :: columnCalls vs (a + 2)

theorem length_columnCalls (vs : List Byte) (a : Int) : (columnCalls vs a).length = vs.length := by
  induction vs generalizing a with
  | nil => rfl
  | cons v vs ih => rw [columnCalls, List.length_cons, List.length_cons, ih]

theorem Ready.execAll_wrcol_cons {s : State} (h : Ready s) (a : Int) (v : Byte) (is : List Instr) :
    execAll exec (.wrcol a v :: is) s = execAll exec is (writeColumn a v s) := by
  have hexec : exec (.wrcol a v) s = .next (writeColumn a v s) := h.serveOpened _
  rw [execAll, hexec]

/-- In a ready state the calls complete, and what follows them starts from the state they leave. -/
theorem Ready.execAll_columnCalls_append {s : State} (h : Ready s) (vs : List Byte) (a : Int) (is : List Instr) :
    execAll exec (columnCalls vs a ++ is) s = execAll exec is (writeColumns vs a s) := by
  induction vs generalizing a s with
  | nil => rfl
  | cons v vs ih =>
    rw [columnCalls, List.cons_append, h.execAll_wrcol_cons]
    exact ih (h.sends (writeColumn_sends a v s)) (a + 2)

section Columns
variable {font : List Glyph} {text : List Nat}

/-- The first character's six columns, and then the rest of the text six columns further on (R122). -/
theorem columnWrites_cons {ch : Nat} {g : Glyph} (hg : font[ch - 32]? = some g) (start : Int) :
    columnWrites font (ch :: text) start =
      columnCalls ((glyphBytes g).map reverse8 ++ [0x00]) (start * 2) ++ columnWrites font text (start + 6) := by
  have haddr (k : Nat) : start * 2 + 12 * ((k + 1 : Nat) : Int) = (start + 6) * 2 + 12 * (k : Int) := by
    push_cast
    ring
  simp only [columnWrites, List.zipIdx_cons', List.flatMap_cons, List.flatMap_map, hg, Prod.map_fst, Prod.map_snd,
    id_eq, haddr]
  simp [columnCalls, glyphBytes, add_assoc]

theorem length_columnWrites (ht : textInRange font text = true) (start : Int) :
    (columnWrites font text start).length = 6 * text.length := by
  induction text generalizing start with
  | nil => rfl
  | cons ch cs ih =>
    obtain ⟨⟨g, hg⟩, hcs⟩ := textInRange_cons.1 ht
    rw [columnWrites_cons (getElem?_of_glyphOf hg), List.length_append, length_columnCalls, ih hcs, List.length_cons]
    simp only [glyphBytes, List.length_append, List.length_map, List.length_cons, List.length_nil]
    omega

end Columns

theorem renderText_cons {s : State} {ch : Nat} {g : Glyph} (hg : glyphOf s.params.font ch = some g) (text : List Nat)
    (start : Int) :
    renderText (ch :: text) (start * 2) s = renderText text ((start + 6) * 2) (renderGlyph g (start * 2) s) := by
  have haddr : start * 2 + Config.charPitch = (start + 6) * 2 := (add_mul start 6 2).symm
  simp only [renderText, hg, haddr]

theorem Ready.execAll_columnWrites {s : State} (h : Ready s) {text : List Nat}
    (ht : textInRange s.params.font text = true) (start : Int) :
    execAll exec (columnWrites s.params.font text start) s = .next (renderText text (start * 2) s) := by
  induction text generalizing start s with
  | nil => rfl
  | cons ch cs ih =>
    obtain ⟨⟨g, hg⟩, hcs⟩ := textInRange_cons.1 ht
    have hs := renderGlyph_sends g (start * 2) s
    rw [columnWrites_cons (getElem?_of_glyphOf hg), h.execAll_columnCalls_append, renderText_cons hg]
    rw [← hs.params] at hcs ⊢
    exact ih (h.sends hs) hcs (start + 6)

/-- Settles O32: by induction on the text, the rendering loop is the column writes run in order. -/
theorem renderStringIsColumnWrites : Obligations.RenderStringIsColumnWrites := by
  refine fun s text start hr => ⟨fun hglyphs => ?_, fun hbad => ?_⟩
  · have ht := textInRange_iff.2 hglyphs
    exact ⟨length_columnWrites ht start, _, hr.exec_rstring ht start, hr.execAll_columnWrites ht start⟩
  · exact hr.exec_rstring_outOfRange (textInRange_eq_false_iff.2 hbad) start

/-! ## RSCROLL as renderings at successive offsets -/

/-- The offsets of all cycles make one list of frames. -/
theorem scrollCycles_eq_foldl (text : List Nat) (speed : Rat) (n : Nat) (s : State) :
    scrollCycles text speed n s =
      (List.replicate n (scrollOffsets text)).flatten.foldl (scrollFrame text speed) s := by
  induction n generalizing s with
  | zero => rfl
  | succ n ih => rw [scrollCycles, ih, List.replicate_succ, List.flatten_cons, List.foldl_append]

/-- Each frame is an RSTRING at its offset and the delay after it. -/
theorem Ready.scrollRun {s : State} (h : Ready s) {text : List Nat} (ht : textInRange s.params.font text = true)
    {speed : Rat} (hv : 0 < speed) (offsets : List Int) :
    ScrollRun text speed offsets s (offsets.foldl (scrollFrame text speed) s) := by
  induction offsets generalizing s with
  | nil => rfl
  | cons o os ih =>
    have hs := scrollFrame_sends text speed s o
    have hrest := ih (h.sends hs) (hs.params ▸ ht)
    refine ⟨_, h.exec_rstring ht o, ?_⟩
    rw [← scrollPeriod_eq hv]
    exact hrest

/-- Settles O33: the cycles are one run over the offsets of all of them, one frame after the other. -/
theorem scrollRendersEveryOffset : Obligations.ScrollRendersEveryOffset := by
  refine fun s text speed n hr hv => ⟨fun hglyphs => ?_, fun hbad => ?_⟩
  · have ht := textInRange_iff.2 hglyphs
    refine ⟨_, hr.exec_rscroll ht hv n, ?_⟩
    rw [scrollCycles_eq_foldl]
    exact hr.scrollRun ht hv _
  · exact hr.exec_rscroll_outOfRange (textInRange_eq_false_iff.2 hbad) hv n

end Sys2Proof.Machine
end

section
/-! PROOFS. A board that is not wired is skipped in silence (60_exceptions.md R132): `send` returns the same state, and
so does everything that comes to a `send` on it. -/

namespace Sys2Proof.Machine

section Skips
variable {s : State} {b : Board}

theorem send_unwired (hb : wired s.cfg b = false) (w : WireWord) (n : Nat) : send b w n s = s := by
  simp [send, hb]

theorem encodeNibble_unwired {a : Byte} (hb : wired s.cfg (routedBoard a.toNat) = false) (d : Nibble) :
    encodeNibble a d s = s := by
  rw [encodeNibble_eq_send, send_unwired hb]

theorem encodeByte_unwired {a : Byte} (hb : wired s.cfg (routedBoard a.toNat) = false) (v : Byte) :
    encodeByte a v s = s := by
  by_cases ha : a.toNat ≤ 0x7F
  · rw [encodeByte_eq_send v s ha, send_unwired hb]
  · exact encodeByte_eq_self v s (by omega)

/-- No event names the pin of an unwired board: that pin is 0, and every named pin is a configured one. -/
theorem eventPin_ne_unwired {i : Instr} {t : State} {es : List Event} (hb : wired s.cfg b = false)
    (h : exec i s = .next t) (ht : t.trace = s.trace ++ es) {e : Event} (he : e ∈ es) :
    eventPin e ≠ some (resolve s.cfg b) := by
  have hzero : resolve s.cfg b = 0 := by simpa [wired] using hb
  exact fun hpin => (eventsNameConfiguredPinsOnly i s t es h ht e he _ hpin).1 hzero

end Skips

/-! ## With neither board wired -/

section Neither
variable {s : State}

theorem fill_unwired (hb : ∀ b, wired s.cfg b = false) (v : Byte) : fill v s = s :=
  List.foldl_fixed' (fun _ => encodeByte_unwired (hb _) v) evenAddresses

theorem writeColumn_unwired (hb : ∀ b, wired s.cfg b = false) (a : Int) (v : Byte) : writeColumn a v s = s := by
  unfold writeColumn
  split
  · exact encodeByte_unwired (hb _) v
  · rfl

theorem execAll_eq_self {is : List Instr} (h : ∀ i ∈ is, exec i s = .next s) : execAll exec is s = .next s := by
  induction is with
  | nil => rfl
  | cons i is ih =>
    obtain ⟨hi, his⟩ := List.forall_mem_cons.1 h
    rw [execAll, hi]
    exact ih his

theorem eq_wrcol_of_mem_columnWrites {font : List Glyph} {text : List Nat} {start : Int} {i : Instr}
    (h : i ∈ columnWrites font text start) : ∃ a v, i = .wrcol a v := by
  obtain ⟨e, -, hi⟩ := List.mem_flatMap.1 h
  split at hi
  · cases hi
  · simp only [List.mem_cons, List.not_mem_nil, or_false] at hi
    obtain rfl | rfl | rfl | rfl | rfl | rfl := hi <;> exact ⟨_, _, rfl⟩

/-- RSTRING is its column writes (R122), each of which is skipped. -/
theorem Ready.renderText_unwired (h : Ready s) (hb : ∀ b, wired s.cfg b = false) {text : List Nat}
    (ht : textInRange s.params.font text = true) (start : Int) : renderText text (start * 2) s = s := by
  have hskip : execAll exec (columnWrites s.params.font text start) s = .next s := by
    refine execAll_eq_self fun i hi => ?_
    obtain ⟨a, v, rfl⟩ := eq_wrcol_of_mem_columnWrites hi
    exact (h.serveOpened _).trans (congrArg _ (writeColumn_unwired hb a v))
  exact Host.Outcome.next.inj ((h.execAll_columnWrites ht start).symm.trans hskip)

end Neither

/-- In a ready state a request whose operation returns the same state completes in that state. -/
theorem Ready.exec_eq_self {s t : State} (h : Ready s) {i : Instr}
    (hexec : exec i s = Machine.serveOpened s (.next t)) (ht : t = s) : exec i s = .next s := by
  rw [hexec, h.serveOpened, ht]

/-- Settles O20: each of the requests comes to sends on the unwired board, and its pin, 0, is no configured pin. -/
theorem unwiredBoardIsSkippedSilently : Obligations.UnwiredBoardIsSkippedSilently := by
  refine fun s hr => ⟨fun b hb => ⟨fun o => ?_, fun a d ha => ?_, fun a v ha => ?_, hr.exec_init_unwired hb,
    fun a v ha => ?_, fun a d ha => ?_, fun i t es h ht e => eventPin_ne_unwired hb h ht⟩, fun h0 h1 => ?_⟩
  · exact hr.exec_eq_self (exec_encCmd_valid (boardOfSelector_boardIndex b) o s) (send_unwired hb _ _)
  · exact hr.exec_eq_self rfl (encodeNibble_unwired (ha ▸ hb) d)
  · exact hr.exec_eq_self rfl (encodeByte_unwired (ha ▸ hb) v)
  · exact hr.exec_eq_self rfl ((writeColumn_toNat a v s).trans (encodeByte_unwired (ha ▸ hb) v))
  · exact hr.exec_eq_self rfl ((writeHalfColumn_toNat a d s).trans (encodeNibble_unwired (ha ▸ hb) d))
  · have hb : ∀ b, wired s.cfg b = false := fun b => match b with
      | .board0 => h0
      | .board1 => h1
    refine ⟨hr.exec_eq_self (exec_clear s) (fill_unwired hb 0x00), fun text start hglyphs => ?_⟩
    have ht := textInRange_iff.2 hglyphs
    rw [hr.exec_rstring ht, hr.renderText_unwired hb ht]

end Sys2Proof.Machine
end

section
/-! PROOFS. Which requests report an error, and what a report leaves unchanged (60_exceptions.md R131, R134, R135): a
request either reports and does nothing else, or puts out events none of which is a report. -/

namespace Sys2Proof.Machine

theorem mem_reports {es : List Event} {c : ErrorCode} : c ∈ reports es ↔ .report c ∈ es := by
  rw [reports, List.mem_filterMap]
  constructor
  · rintro ⟨e, he, hc⟩
    cases e <;> cases hc
    exact he
  · exact fun h => ⟨_, h, rfl⟩

theorem report_notMem_openEvents {c : Cfg} {p : Params} {code : ErrorCode} : .report code ∉ openEvents c p := by
  simp [mem_openEvents]

theorem report_notMem_emissions {c : Cfg} {ms : List Emission} {code : ErrorCode} :
    .report code ∉ ms.flatMap (Emission.events c) := by
  intro he
  obtain ⟨m, -, hm⟩ := List.mem_flatMap.1 he
  cases m with
  | frame b bits =>
    obtain ⟨_, _, h, -⟩ := mem_frameEvents hm
    cases h
  | wait t => simp [Emission.events] at hm

/-- The trace of `t` is that of `s` with events none of which is a report. -/
def PutsNoReport (s t : State) : Prop := ∃ es, t.trace = s.trace ++ es ∧ ∀ c, .report c ∉ es

section NoReport
variable {s t u : State} {c : ErrorCode}

theorem Sends.putsNoReport {ms : List Emission} (hs : Sends ms s t) : PutsNoReport s t :=
  ⟨_, hs.trace, fun _ => report_notMem_emissions⟩

theorem putsNoReport_openedFrom (s : State) : PutsNoReport s (openedFrom s) :=
  ⟨_, openedFrom_trace s, fun _ => report_notMem_openEvents⟩

theorem PutsNoReport.setLc (h : PutsNoReport s u) (b : Board) (x : Lifecycle) : PutsNoReport s (setLc b x u) := by
  obtain ⟨es, htrace, hes⟩ := h
  exact ⟨es, (setLc_trace u b x).trans htrace, hes⟩

theorem PutsNoReport.releaseLines (h : PutsNoReport s u) : PutsNoReport s (releaseLines u) := by
  obtain ⟨es, htrace, hes⟩ := h
  refine ⟨es ++ [.releaseAll], ?_, by simpa using hes⟩
  rw [releaseLines_eq, htrace, List.append_assoc]

theorem initialise_putsNoReport (b : Board) (s : State) : PutsNoReport s (initialise b s) := by
  obtain ⟨u, hs, he⟩ := initialise_sends b s
  rw [he]
  exact hs.putsNoReport.setLc b .enabled

theorem PutsNoReport.report_notMem (h : PutsNoReport s t) {es : List Event} (ht : t.trace = s.trace ++ es) :
    .report c ∉ es := by
  obtain ⟨es', htrace, hes⟩ := h
  obtain rfl : es = es' := List.append_cancel_left (ht.symm.trans htrace)
  exact hes c

theorem not_putsNoReport_reported : ¬ PutsNoReport s (reported c s) :=
  fun h => h.report_notMem rfl (List.mem_singleton_self _)

theorem PutsNoReport.of_next (h : PutsNoReport s u)
    (he : (.next u : Host.Outcome State Fault Refusal) = .next t) : PutsNoReport s t :=
  Host.Outcome.next.inj he ▸ h

theorem PutsNoReport.of_served {takes : Bool} (h : PutsNoReport s u) (he : serve takes s (.next u) = .next t) :
    PutsNoReport s t :=
  h.of_next (serve_next he).2.2

theorem reported_inj {c' : ErrorCode} (h : reported c s = reported c' s) : c = c' := by
  simpa [reported] using h

/-- Everything a request can do is a report alone, or reports nothing. -/
theorem Effect.reported_or_putsNoReport (he : Effect s t) : (∃ c, t = reported c s) ∨ PutsNoReport s t := by
  cases he with
  | idle _ => exact .inr (Sends.refl s).putsNoReport
  | opening _ => exact .inr (putsNoReport_openedFrom s)
  | error _ c => exact .inl ⟨c, emit_report c s⟩
  | sends _ ms hs => exact .inr hs.putsNoReport
  | init _ b _ hs => exact .inr (hs.putsNoReport.setLc b .enabled)
  | closing _ hs => exact .inr hs.putsNoReport.releaseLines

end NoReport

/-- Settles O43: a request that reports does nothing else. -/
theorem aReportStandsAlone : Obligations.AReportStandsAlone := by
  intro i s t es h ht hreports
  obtain ⟨-, heff⟩ := exec_effect h
  obtain hreported | hnone := heff.reported_or_putsNoReport
  · exact hreported
  · obtain ⟨c, hc⟩ := List.exists_mem_of_ne_nil _ hreports
    exact absurd (mem_reports.1 hc) (hnone.report_notMem ht)

/-! ## The five requests that report, in a ready state -/

section Reporters
variable {s : State} {c : ErrorCode}

theorem ready_of_serveOpened {k : Host.Outcome State Fault Refusal} {t : State}
    (h : serveOpened s k = .next t) : Ready s := by
  obtain ⟨hw, ho, -⟩ := serveOpened_next h
  exact ⟨hw, ho⟩

theorem code_of_reported {c' : ErrorCode}
    (h : serveOpened s (.next (reported c' s)) = .next (reported c s)) : c = c' := by
  obtain ⟨-, -, h⟩ := serveOpened_next h
  exact (reported_inj (Host.Outcome.next.inj h)).symm

theorem boardOfSelector_eq_none {sel : BitVec 2} (h : boardOfSelector sel = none) : sel = 2 ∨ sel = 3 := by
  revert sel
  decide

/-- A chip-select that is neither reported nor refused belongs to a wired board. -/
theorem Ready.wired_of_transmit_next (h : Ready s) {w : WireWord} {n : BitVec 5} {cs : Pin} {t : State} (hcs : cs ≠ 0)
    (he : exec (.transmit w n cs) s = .next t) : ∃ b, wired s.cfg b = true ∧ cs = resolve s.cfg b := by
  by_contra hno
  have hother (b : Board) : cs ≠ resolve s.cfg b := by
    rintro rfl
    exact hno ⟨b, by simpa [wired] using hcs, rfl⟩
  rw [exec_transmit_foreign w n hcs (hother .board0) (hother .board1), h.serveOpened] at he
  cases he

theorem code_of_transmit {w : WireWord} {n : BitVec 5} {cs : Pin}
    (h : exec (.transmit w n cs) s = .next (reported c s)) :
    (cs = 0 ∧ c = .csUnconfigured) ∨ (cs ≠ 0 ∧ ¬ (n = 12 ∨ n = 14 ∨ n = 18) ∧ c = .badLength) := by
  have hr := ready_of_serveOpened h
  by_cases hcs : cs = 0
  · subst hcs
    rw [exec_transmit_zero] at h
    exact .inl ⟨rfl, code_of_reported h⟩
  obtain ⟨b, hb, rfl⟩ := hr.wired_of_transmit_next hcs h
  by_cases hn : n = 12 ∨ n = 14 ∨ n = 18
  · rw [exec_transmit_wired hr.pinsApart hb hn] at h
    exact absurd ((transmit_sends hb w _).putsNoReport.of_served h) not_putsNoReport_reported
  · rw [exec_transmit_badLength w hr.pinsApart hb hn] at h
    exact .inr ⟨hcs, hn, code_of_reported h⟩

theorem code_of_encCmd {sel : BitVec 2} {o : Byte} (h : exec (.encCmd sel o) s = .next (reported c s)) :
    (sel = 2 ∨ sel = 3) ∧ c = .badBoard := by
  cases hb : boardOfSelector sel with
  | none =>
    rw [exec_encCmd_invalid hb] at h
    exact ⟨boardOfSelector_eq_none hb, code_of_reported h⟩
  | some b =>
    rw [exec_encCmd_valid hb] at h
    exact absurd ((sendCommand_sends b o s).putsNoReport.of_served h) not_putsNoReport_reported

theorem code_of_initBoard {sel : BitVec 2} (h : exec (.initBoard sel) s = .next (reported c s)) :
    (sel = 2 ∨ sel = 3) ∧ c = .badBoard := by
  cases hb : boardOfSelector sel with
  | none =>
    rw [exec_init_invalid hb] at h
    exact ⟨boardOfSelector_eq_none hb, code_of_reported h⟩
  | some b =>
    have hr := ready_of_serveOpened h
    obtain rfl := boardOfSelector_eq_some hb
    cases hw : wired s.cfg b with
    | true =>
      rw [exec_init_wired hw] at h
      exact absurd ((initialise_putsNoReport b s).of_served h) not_putsNoReport_reported
    | false =>
      rw [hr.exec_init_unwired hw] at h
      exact absurd ((Sends.refl s).putsNoReport.of_next h) not_putsNoReport_reported

theorem code_of_rstring {text : List Nat} {start : Int} (h : exec (.rstring text start) s = .next (reported c s)) :
    textInRange s.params.font text = false ∧ c = .range := by
  have hr := ready_of_serveOpened h
  cases ht : textInRange s.params.font text with
  | false =>
    rw [hr.exec_rstring_outOfRange ht] at h
    exact ⟨rfl, (reported_inj (Host.Outcome.next.inj h)).symm⟩
  | true =>
    rw [hr.exec_rstring ht] at h
    exact absurd ((renderText_sends text _ s).putsNoReport.of_next h) not_putsNoReport_reported

/-- RSCROLL with operands out of range is refused, not reported (R137). -/
theorem scroll_operands_of_next {text : List Nat} {speed : Rat} {cycles : Int} {t : State}
    (h : exec (.rscroll text speed cycles) s = .next t) : 0 < speed ∧ 0 ≤ cycles := by
  by_contra hno
  have ho : speed ≤ 0 ∨ cycles < 0 := by rwa [not_and_or, not_lt, not_le] at hno
  have hr := ready_of_serveOpened h
  rw [exec_rscroll_badOperands ho, hr.serveOpened] at h
  cases h

theorem code_of_rscroll {text : List Nat} {speed : Rat} {cycles : Int}
    (h : exec (.rscroll text speed cycles) s = .next (reported c s)) :
    textInRange s.params.font text = false ∧ c = .range := by
  have hr := ready_of_serveOpened h
  obtain ⟨hv, hn⟩ := scroll_operands_of_next h
  lift cycles to Nat using hn with n
  cases ht : textInRange s.params.font text with
  | false =>
    rw [hr.exec_rscroll_outOfRange ht hv] at h
    exact ⟨rfl, (reported_inj (Host.Outcome.next.inj h)).symm⟩
  | true =>
    rw [hr.exec_rscroll ht hv] at h
    exact absurd ((scrollCycles_sends text speed n s).putsNoReport.of_next h) not_putsNoReport_reported

end Reporters

/-! ## The instructions that never report -/

/-- The operations of R131. -/
def mayReport : Instr → Bool
  | .transmit _ _ _ | .encCmd _ _ | .initBoard _ | .rstring _ _ | .rscroll _ _ _ => true
  | _ => false

theorem exec_putsNoReport {i : Instr} {s t : State} (hi : mayReport i = false) (h : exec i s = .next t) :
    PutsNoReport s t := by
  cases i with
  | transmit | encCmd | initBoard | rstring | rscroll => cases hi
  | cmd b o => exact (sendCommand_sends b o s).putsNoReport.of_served h
  | wrNib b a d => exact (send_sends b _ 14 s).putsNoReport.of_served h
  | wrByte b a v => exact (send_sends b _ 18 s).putsNoReport.of_served h
  | systemDisable b => exact (sendCommand_sends b _ s).putsNoReport.of_served h
  | setCommon8Nmos b => exact (sendCommand_sends b _ s).putsNoReport.of_served h
  | systemEnable b => exact (sendCommand_sends b _ s).putsNoReport.of_served h
  | ledOn b => exact (sendCommand_sends b _ s).putsNoReport.of_served h
  | pwm16Grayscale b => exact (sendCommand_sends b _ s).putsNoReport.of_served h
  | encNib a d => exact (encodeNibble_sends a d s).putsNoReport.of_served h
  | encByte a v => exact (encodeByte_sends a v s).putsNoReport.of_served h
  | clear => exact (fill_sends 0x00 s).putsNoReport.of_served h
  | selftest => exact (selftest_sends s).putsNoReport.of_served h
  | wrcol a v => exact (writeColumn_sends a v s).putsNoReport.of_served h
  | wrhalf a d => exact (writeHalfColumn_sends a d s).putsNoReport.of_served h
  | openLines => exact (putsNoReport_openedFrom s).of_served h
  | teardown =>
    by_cases ho : s.phase = .opened
    · exact (fill_sends 0x00 s).putsNoReport.releaseLines.of_served ((exec_teardown_opened ho).symm.trans h)
    · exact (Sends.refl s).putsNoReport.of_served ((exec_teardown_idle ho).symm.trans h)

/-- Settles O44: the five requests report their own codes, and the other instructions put out no report. -/
theorem whoMayReportWhat : Obligations.WhoMayReportWhat := by
  intro i s c h
  cases i with
  | transmit w n cs =>
    obtain ⟨rfl, hc⟩ | ⟨hcs, hn, hc⟩ := code_of_transmit h
    · exact .inl ⟨w, n, rfl, hc⟩
    · obtain ⟨h12, h14, h18⟩ : n ≠ 12 ∧ n ≠ 14 ∧ n ≠ 18 := by simpa only [not_or] using hn
      exact .inr (.inl ⟨w, n, cs, rfl, hcs, h12, h14, h18, hc⟩)
  | encCmd sel o => exact .inr (.inr (.inl ⟨sel, o, rfl, code_of_encCmd h⟩))
  | initBoard sel => exact .inr (.inr (.inr (.inl ⟨sel, rfl, code_of_initBoard h⟩)))
  | rstring text start =>
    obtain ⟨ht, hc⟩ := code_of_rstring h
    exact .inr (.inr (.inr (.inr (.inl ⟨text, start, rfl, textInRange_eq_false_iff.1 ht, hc⟩))))
  | rscroll text speed cycles =>
    obtain ⟨ht, hc⟩ := code_of_rscroll h
    exact .inr (.inr (.inr (.inr (.inr ⟨text, speed, cycles, rfl, textInRange_eq_false_iff.1 ht, hc⟩))))
  | _ => exact absurd (exec_putsNoReport rfl h) not_putsNoReport_reported

end Sys2Proof.Machine
end

section
/-! PROOFS. How many events each request puts out (70_reset_and_hazards.md R165): the lengths of the lists of events that
the requests put out, and then R165's table row by row. -/

namespace Sys2Proof.Machine

/-! ## The lengths of the lists of events -/

/-- The number of wired boards, R165's `w`. -/
def wiredCount (c : Cfg) : Nat := (wired c .board0).toNat + (wired c .board1).toNat

section Lengths
variable {c : Cfg} {b : Board}

/-- A frame of `n` bits is `3n + 3` events (40_bitserializer.md R82), and none to a board that is not wired. -/
theorem length_sentTo {frame : List Bool} {n : Nat} (hn : frame.length = n) :
    (sentTo c b frame).length = if wired c b then 3 * n + 3 else 0 := by
  rw [sentTo, apply_ite List.length, length_frameEvents, hn, List.length_nil]

/-- One event for each of the two lines that are always there, and one for each wired board. -/
theorem length_openEvents (p : Params) : (openEvents c p).length = 2 + wiredCount c := by
  rw [openEvents_eq, wiredCount]
  cases wired c .board0 <;> cases wired c .board1 <;> rfl

/-- Five CMD12 frames of 39 events, and the delay. -/
theorem length_initEvents (hb : wired c b = true) (p : Params) : (initEvents c p b).length = 196 := by
  have hframe (n : CommandName) : (sentTo c b (commandBits (p.opcode n))).length = 39 :=
    (length_sentTo rfl).trans (if_pos hb)
  simp only [initEvents, List.length_append, List.length_flatMap, hframe]
  rfl

/-- Byte writes to addresses that all route to one board: 57 events each when it is wired. -/
theorem length_byteWrites {ks : List Nat} (hks : ∀ k ∈ ks, routedBoard (2 * k) = b) (v : Byte) :
    (ks.flatMap fun k => sentTo c (routedBoard (2 * k)) (byteBits (BitVec.ofNat 6 (2 * k)) v)).length =
      ks.length * (57 * (wired c b).toNat) := by
  have hframe : ∀ k ∈ ks, (sentTo c (routedBoard (2 * k)) (byteBits (BitVec.ofNat 6 (2 * k)) v)).length =
      57 * (wired c b).toNat := by
    intro k hk
    rw [hks k hk, length_sentTo (n := 18) rfl]
    cases wired c b <;> rfl
  rw [List.length_flatMap, List.map_congr_left hframe, List.map_const', List.sum_replicate_nat]

/-- 32 of the even addresses are BOARD0's and 32 are BOARD1's. -/
theorem length_fillEvents (v : Byte) : (fillEvents c v).length = 1824 * wiredCount c := by
  have hlow : ∀ k ∈ List.range 32, routedBoard (2 * k) = .board0 := fun k hk =>
    routedBoard_of_le (by have := List.mem_range.1 hk; omega)
  have hhigh : ∀ k ∈ (List.range 32).map (32 + ·), routedBoard (2 * k) = .board1 := by
    intro k hk
    obtain ⟨j, -, rfl⟩ := List.mem_map.1 hk
    exact routedBoard_of_ge (by omega)
  have hsplit : List.range 64 = List.range 32 ++ (List.range 32).map (32 + ·) := List.range_add (n := 32) (m := 32)
  rw [fillEvents, hsplit, List.flatMap_append, List.length_append, length_byteWrites hlow, length_byteWrites hhigh,
    List.length_map, List.length_range, wiredCount]
  omega

end Lengths

/-! ## The rows of the table -/

section Rows
variable {s t u : State} {i : Instr} {es : List Event} {b : Board}

/-- A completed request has put out the events of its operation. -/
theorem length_trace_of_served {takes : Bool} (hexec : exec i s = serve takes s (.next u))
    (hu : u.trace = s.trace ++ es) (h : exec i s = .next t) : t.trace.length = s.trace.length + es.length := by
  obtain ⟨-, -, ht⟩ := serve_next (hexec.symm.trans h)
  cases ht
  rw [hu, List.length_append]

/-- A completed request without effect has put out nothing. -/
theorem length_trace_of_dropped {takes : Bool} (hexec : exec i s = serve takes s (.next s)) (h : exec i s = .next t) :
    t.trace.length = s.trace.length :=
  length_trace_of_served hexec (List.append_nil _).symm h

/-- A completed request that is one `send` has put out the events of one frame. -/
theorem length_trace_of_sent {w : WireWord} {n : Nat} (hn : (sentBits w n).length = n)
    (hexec : exec i s = serveOpened s (.next (send b w n s))) (h : exec i s = .next t) :
    t.trace.length = s.trace.length + if wired s.cfg b then 3 * n + 3 else 0 := by
  rw [length_trace_of_served hexec (send_puts b w n s).trace h, length_sentTo hn]

theorem length_trace_transmit (hb : wired s.cfg b = true) {n : BitVec 5} (hn : n = 12 ∨ n = 14 ∨ n = 18)
    {w : WireWord} (h : exec (.transmit w n (resolve s.cfg b)) s = .next t) :
    t.trace.length = s.trace.length + (3 * n.toNat + 3) := by
  have hexec := exec_transmit_wired (pinsApart_of_configWf (exec_effect h).1) hb hn w
  rw [length_trace_of_served hexec (transmit_trace s b w n.toNat) h, length_frameEvents, length_sentBits w hn]

theorem length_trace_encCmd {o : Byte} (h : exec (.encCmd (BitVec.ofNat 2 (boardIndex b)) o) s = .next t) :
    t.trace.length = s.trace.length + if wired s.cfg b then 39 else 0 :=
  length_trace_of_sent rfl ((exec_encCmd_valid (boardOfSelector_boardIndex b) o s).trans (exec_cmd b o s)) h

theorem length_trace_encNib {a : Byte} {d : Nibble} (h : exec (.encNib a d) s = .next t) :
    t.trace.length = s.trace.length + if wired s.cfg (routedBoard a.toNat) then 45 else 0 :=
  length_trace_of_sent rfl (exec_encNib a d s) h

theorem length_trace_encByte {a v : Byte} (h : exec (.encByte a v) s = .next t) :
    t.trace.length = s.trace.length +
      if a.toNat ≤ 0x7F ∧ wired s.cfg (routedBoard a.toNat) = true then 57 else 0 := by
  by_cases ha : a.toNat ≤ 0x7F
  · simp only [ha, true_and]
    exact length_trace_of_sent rfl (exec_encByte v s ha) h
  · rw [if_neg (ha ·.1)]
    exact length_trace_of_dropped (exec_encByte_dropped v s (by omega)) h

theorem length_trace_openLines (h : exec .openLines s = .next t) :
    t.trace.length = s.trace.length + (2 + wiredCount s.cfg) := by
  rw [length_trace_of_served (exec_openLines s) rfl h, length_openEvents]

theorem length_trace_initBoard (ho : s.phase = .opened)
    (h : exec (.initBoard (BitVec.ofNat 2 (boardIndex b))) s = .next t) :
    t.trace.length = s.trace.length + if wired s.cfg b then 196 else 0 := by
  have hr : Ready s := ⟨(exec_effect h).1, ho⟩
  cases hb : wired s.cfg b with
  | true =>
    obtain ⟨u, hu, he⟩ := hr.exec_init_wired hb
    cases he.symm.trans h
    rw [setLc_trace, hu.trace, List.length_append, length_initEvents hb, if_pos rfl]
  | false =>
    cases (hr.exec_init_unwired hb).symm.trans h
    rfl

theorem length_trace_clear (h : exec .clear s = .next t) :
    t.trace.length = s.trace.length + 1824 * wiredCount s.cfg := by
  rw [length_trace_of_served (exec_clear s) (fill_puts 0x00 s).trace h, length_fillEvents]

theorem length_trace_selftest (ho : s.phase = .opened) (h : exec .selftest s = .next t) :
    t.trace.length = s.trace.length + (3648 * wiredCount s.cfg + 1) := by
  obtain ⟨u, he, hu⟩ := selftestLightsThenClears s ⟨(exec_effect h).1, ho⟩
  cases he.symm.trans h
  simp only [hu.trace, List.length_append, length_fillEvents, List.length_singleton]
  omega

/-- The address that the column writes hand to the encoder (42_displaycontroller.md R105, R106). -/
theorem toNat_ofInt_of_inRange {a : Int} (ha : 0 ≤ a ∧ a ≤ 255) : (BitVec.ofInt 8 a).toNat = a.toNat := by
  rw [BitVec.toNat_ofInt]
  omega

theorem length_trace_wrcol {a : Int} {v : Byte} (h : exec (.wrcol a v) s = .next t) :
    t.trace.length = s.trace.length +
      if 0 ≤ a ∧ a ≤ 0x7F ∧ wired s.cfg (routedBoard a.toNat) = true then 57 else 0 := by
  by_cases ha : 0 ≤ a ∧ a ≤ 255
  · have hlow : a.toNat ≤ 0x7F ↔ 0 ≤ a ∧ a ≤ 0x7F := by omega
    have hcount := length_trace_encByte ((exec_wrcol ha v s).symm.trans h)
    simpa only [toNat_ofInt_of_inRange ha, hlow, and_assoc] using hcount
  · rw [if_neg fun hin => ha ⟨hin.1, hin.2.1.trans (by decide)⟩]
    exact length_trace_of_dropped (exec_wrcol_dropped ha v s) h

theorem length_trace_wrhalf {a : Int} {d : Nibble} (h : exec (.wrhalf a d) s = .next t) :
    t.trace.length = s.trace.length +
      if 0 ≤ a ∧ a ≤ 255 ∧ wired s.cfg (routedBoard a.toNat) = true then 45 else 0 := by
  by_cases ha : 0 ≤ a ∧ a ≤ 255
  · have hcount := length_trace_encNib ((exec_wrhalf ha d s).symm.trans h)
    simpa only [toNat_ofInt_of_inRange ha, ha.1, ha.2, true_and] using hcount
  · rw [if_neg fun hin => ha ⟨hin.1, hin.2.1⟩]
    exact length_trace_of_dropped (exec_wrhalf_dropped ha d s) h

theorem length_trace_teardown (ho : s.phase = .opened) (h : exec .teardown s = .next t) :
    t.trace.length = s.trace.length + (1824 * wiredCount s.cfg + 1) := by
  have htrace : (emit [.releaseAll] (fill 0x00 s)).trace = s.trace ++ (fillEvents s.cfg 0x00 ++ [.releaseAll]) := by
    rw [emit_trace, (fill_puts 0x00 s).trace, List.append_assoc]
  rw [length_trace_of_served (exec_teardown_opened ho) htrace h, List.length_append, length_fillEvents,
    List.length_singleton]

end Rows

/-- Settles O47: R165's table, one lemma for each row. -/
theorem eventCounts : Obligations.EventCounts :=
  fun _ _ => ⟨length_trace_openLines,
    fun ho => ⟨fun _ _ _ hb hn => length_trace_transmit hb hn, fun _ _ => length_trace_encCmd,
      fun _ _ => length_trace_encNib, fun _ _ => length_trace_encByte, fun _ => length_trace_initBoard ho,
      length_trace_clear, length_trace_selftest ho, fun _ _ => length_trace_wrcol, fun _ _ => length_trace_wrhalf,
      length_trace_teardown ho⟩,
    fun hp => length_trace_of_dropped (exec_teardown_idle hp)⟩

end Sys2Proof.Machine
end
